-- ==== Sys2Proof/Word.lean ====
section
/-! DEFINITION. The words of the hardware and their widths (00_scope.md R10, R12). -/

namespace Sys2Proof

/-- A general register, a memory byte, an immediate byte, a timer (R10). -/
abbrev Byte := BitVec 8

/-- `I`, `PC`, a stack entry, an instruction word, a set of keys (R10, R70). -/
abbrev Word := BitVec 16

/-- A register index, a sprite height, a key code, `SP` (R10, R30). -/
abbrev Nibble := BitVec 4

/-- A 12-bit immediate address or slot number (R10, R73). -/
abbrev Addr := BitVec 12

/-- One display row: bit 63 is the leftmost pixel (R34). -/
abbrev RowBits := BitVec 64

end Sys2Proof
end

