-- ==== Sys2Proof/Syntax.lean ====
section
/-! DEFINITION. The decoded instructions: one constructor per row of spec/opcode_table.json,
in the order of 30_encoding.md R74. -/

namespace Sys2Proof

/-- A decoded instruction (R70, R74). The fields are the operands each form carries (R73). -/
inductive Instr where
  /-- `SYS addr` (R100). -/
  | sys (addr : Addr)
  /-- `CLS` (R160). -/
  | cls
  /-- `RET` (R101). -/
  | ret
  /-- `JP addr` (R102). -/
  | jp (addr : Addr)
  /-- `CALL addr` (R103). -/
  | call (addr : Addr)
  /-- `SE Vx,byte` (R121). -/
  | seByte (x : Nibble) (byte : Byte)
  /-- `SNE Vx,byte` (R122). -/
  | sneByte (x : Nibble) (byte : Byte)
  /-- `SE Vx,Vy` (R123). -/
  | seReg (x y : Nibble)
  /-- `SNE Vx,Vy` (R124). -/
  | sneReg (x y : Nibble)
  /-- `LD Vx,byte` (R132). -/
  | ldByte (x : Nibble) (byte : Byte)
  /-- `ADD Vx,byte` (R133). -/
  | addByte (x : Nibble) (byte : Byte)
  /-- `LD Vx,Vy` (R134). -/
  | ldReg (x y : Nibble)
  /-- `OR Vx,Vy` (R135). -/
  | orReg (x y : Nibble)
  /-- `AND Vx,Vy` (R136). -/
  | andReg (x y : Nibble)
  /-- `XOR Vx,Vy` (R137). -/
  | xorReg (x y : Nibble)
  /-- `ADD Vx,Vy` (R138). -/
  | addReg (x y : Nibble)
  /-- `SUB Vx,Vy` (R139). -/
  | subReg (x y : Nibble)
  /-- `SHR Vx` (R140). -/
  | shr (x : Nibble)
  /-- `SUBN Vx,Vy` (R141). -/
  | subnReg (x y : Nibble)
  /-- `SHL Vx` (R142). -/
  | shl (x : Nibble)
  /-- `LD I,addr` (R150). -/
  | ldI (addr : Addr)
  /-- `JP V0,addr` (R104). -/
  | jpV0 (addr : Addr)
  /-- `RND Vx,byte` (R144). -/
  | rnd (x : Nibble) (byte : Byte)
  /-- `DRW Vx,Vy,n` (R162). -/
  | drw (x y n : Nibble)
  /-- `SKP Vx` (R186). -/
  | skp (x : Nibble)
  /-- `SKNP Vx` (R187). -/
  | sknp (x : Nibble)
  /-- `LD Vx,DT` (R153). -/
  | ldVxDt (x : Nibble)
  /-- `LD Vx,K` (R188). -/
  | ldVxK (x : Nibble)
  /-- `LD DT,Vx` (R154). -/
  | ldDtVx (x : Nibble)
  /-- `LD ST,Vx` (R155). -/
  | ldStVx (x : Nibble)
  /-- `ADD I,Vx` (R151). -/
  | addI (x : Nibble)
  /-- `LD F,Vx` (R152). -/
  | ldF (x : Nibble)
deriving DecidableEq, Repr

end Sys2Proof
end

