-- ==== Sys2Proof/WellFormed.lean ====
section
/-! DEFINITION. Which decoded instructions an instruction word can carry. -/

namespace Sys2Proof

/-- Every field's width already excludes an operand out of range (R73). The one check left:
`SYS 0x0E0` and `SYS 0x0EE` do not exist, since those words are `CLS` and `RET` (R74, R75). -/
def Instr.wellFormed : Instr → Bool
  | .sys addr => addr != 0x0E0#12 && addr != 0x0EE#12
  | _ => true

/-- `wellFormed` as a proposition. -/
abbrev Instr.WellFormed (i : Instr) : Prop := i.wellFormed = true

end Sys2Proof
end

