-- ==== Sys2Proof/Decode.lean ====
section
/-! DEFINITION. The decoder of 30_encoding.md, total on 16-bit words; the encoder; the opcode table. -/

namespace Sys2Proof

/-! ### Fields of a word (R71) -/

/-- `op = w[15:12]`. -/
def fieldOp (w : Word) : Nibble := w.extractLsb' 12 4

/-- `x = w[11:8]`. -/
def fieldX (w : Word) : Nibble := w.extractLsb' 8 4

/-- `y = w[7:4]`. -/
def fieldY (w : Word) : Nibble := w.extractLsb' 4 4

/-- `n = w[3:0]`. -/
def fieldN (w : Word) : Nibble := w.extractLsb' 0 4

/-- `kk = w[7:0]`. -/
def fieldKk (w : Word) : Byte := w.extractLsb' 0 8

/-- `nnn = w[11:0]`. -/
def fieldNnn (w : Word) : Addr := w.extractLsb' 0 12

/-! ### Decoder (R75) -/

/-- What a word decodes to: one of the 32 instructions, or `UNDEF(w)` (R70, R75). -/
inductive Decoded where
  /-- One of the 32 instructions. -/
  | instr (i : Instr)
  /-- The word matches no row: rejected under the spec's name `UNDEF` (R75, R78). -/
  | undef (w : Word)
deriving DecidableEq, Repr

/-- Words of major opcode 8, by their low nibble (R75). -/
def decode8 (w : Word) : Decoded :=
  match (fieldN w).toNat with
  | 0x0 => .instr (.ldReg (fieldX w) (fieldY w))
  | 0x1 => .instr (.orReg (fieldX w) (fieldY w))
  | 0x2 => .instr (.andReg (fieldX w) (fieldY w))
  | 0x3 => .instr (.xorReg (fieldX w) (fieldY w))
  | 0x4 => .instr (.addReg (fieldX w) (fieldY w))
  | 0x5 => .instr (.subReg (fieldX w) (fieldY w))
  | 0x6 => .instr (.shr (fieldX w))
  | 0x7 => .instr (.subnReg (fieldX w) (fieldY w))
  | 0xE => .instr (.shl (fieldX w))
  | _ => .undef w

/-- Words of major opcode E, by their low byte (R75). -/
def decodeE (w : Word) : Decoded :=
  if fieldKk w = 0x9E#8 then .instr (.skp (fieldX w))
  else if fieldKk w = 0xA1#8 then .instr (.sknp (fieldX w))
  else .undef w

/-- Words of major opcode F, by their low byte (R75). -/
def decodeF (w : Word) : Decoded :=
  if fieldKk w = 0x07#8 then .instr (.ldVxDt (fieldX w))
  else if fieldKk w = 0x0A#8 then .instr (.ldVxK (fieldX w))
  else if fieldKk w = 0x15#8 then .instr (.ldDtVx (fieldX w))
  else if fieldKk w = 0x18#8 then .instr (.ldStVx (fieldX w))
  else if fieldKk w = 0x1E#8 then .instr (.addI (fieldX w))
  else if fieldKk w = 0x29#8 then .instr (.ldF (fieldX w))
  else .undef w

/-- The decoder, by major opcode (R75). The last arm is never reached: `op` has four bits. -/
def decode (w : Word) : Decoded :=
  match (fieldOp w).toNat with
  | 0x0 =>
    if w = 0x00E0#16 then .instr .cls
    else if w = 0x00EE#16 then .instr .ret
    else .instr (.sys (fieldNnn w))
  | 0x1 => .instr (.jp (fieldNnn w))
  | 0x2 => .instr (.call (fieldNnn w))
  | 0x3 => .instr (.seByte (fieldX w) (fieldKk w))
  | 0x4 => .instr (.sneByte (fieldX w) (fieldKk w))
  | 0x5 => if fieldN w = 0x0#4 then .instr (.seReg (fieldX w) (fieldY w)) else .undef w
  | 0x6 => .instr (.ldByte (fieldX w) (fieldKk w))
  | 0x7 => .instr (.addByte (fieldX w) (fieldKk w))
  | 0x8 => decode8 w
  | 0x9 => if fieldN w = 0x0#4 then .instr (.sneReg (fieldX w) (fieldY w)) else .undef w
  | 0xA => .instr (.ldI (fieldNnn w))
  | 0xB => .instr (.jpV0 (fieldNnn w))
  | 0xC => .instr (.rnd (fieldX w) (fieldKk w))
  | 0xD => .instr (.drw (fieldX w) (fieldY w) (fieldN w))
  | 0xE => decodeE w
  | 0xF => decodeF w
  | _ => .undef w

/-- The decoder on a word numbered as spec/opcode_table.json numbers it. Every instruction is one
16-bit word (R70, R81), so bits above `nbits` or above 16 are no part of it. -/
def decodeTableWord (nbits w : Nat) : Option Instr :=
  match decode (BitVec.ofNat 16 (w % 2 ^ nbits)) with
  | .instr i => some i
  | .undef _ => none

/-! ### Encoder (R71, R72, R74) -/

/-- Format A: `op`, `nnn` (R72). -/
def wordA (op : Nibble) (nnn : Addr) : Word := op ++ nnn

/-- Formats XK and X: `op`, `x`, `kk` (R72). -/
def wordXK (op x : Nibble) (kk : Byte) : Word := op ++ x ++ kk

/-- Formats XY and XYN: `op`, `x`, `y`, `n` (R72). -/
def wordXY (op x y n : Nibble) : Word := op ++ x ++ y ++ n

/-- The word of an instruction (R74). The ignored `y` field of `SHR` and `SHL` is written as 0
(R77; log 17). -/
def encode : Instr → Word
  | .sys addr => wordA 0x0 addr
  | .cls => 0x00E0#16
  | .ret => 0x00EE#16
  | .jp addr => wordA 0x1 addr
  | .call addr => wordA 0x2 addr
  | .seByte x byte => wordXK 0x3 x byte
  | .sneByte x byte => wordXK 0x4 x byte
  | .seReg x y => wordXY 0x5 x y 0x0
  | .sneReg x y => wordXY 0x9 x y 0x0
  | .ldByte x byte => wordXK 0x6 x byte
  | .addByte x byte => wordXK 0x7 x byte
  | .ldReg x y => wordXY 0x8 x y 0x0
  | .orReg x y => wordXY 0x8 x y 0x1
  | .andReg x y => wordXY 0x8 x y 0x2
  | .xorReg x y => wordXY 0x8 x y 0x3
  | .addReg x y => wordXY 0x8 x y 0x4
  | .subReg x y => wordXY 0x8 x y 0x5
  | .shr x => wordXY 0x8 x 0x0 0x6
  | .subnReg x y => wordXY 0x8 x y 0x7
  | .shl x => wordXY 0x8 x 0x0 0xE
  | .ldI addr => wordA 0xA addr
  | .jpV0 addr => wordA 0xB addr
  | .rnd x byte => wordXK 0xC x byte
  | .drw x y n => wordXY 0xD x y n
  | .skp x => wordXK 0xE x 0x9E
  | .sknp x => wordXK 0xE x 0xA1
  | .ldVxDt x => wordXK 0xF x 0x07
  | .ldVxK x => wordXK 0xF x 0x0A
  | .ldDtVx x => wordXK 0xF x 0x15
  | .ldStVx x => wordXK 0xF x 0x18
  | .addI x => wordXK 0xF x 0x1E
  | .ldF x => wordXK 0xF x 0x29

/-! ### The opcode table (spec/opcode_table.json) -/

/-- One row of the table: a word matches it when `w &&& mask = pattern` (R75). -/
structure OpcodeRow where
  mnemonic : String
  mask : Word
  pattern : Word
deriving DecidableEq, Repr

/-- The word matches the row's mask and pattern. -/
def OpcodeRow.matchesWord (r : OpcodeRow) (w : Word) : Bool := w &&& r.mask == r.pattern

/-- The rows of formats Z, A, XK and XYN. -/
def opcodeRowsWide : List OpcodeRow := [
  ⟨"CLS", 0xFFFF, 0x00E0⟩, ⟨"RET", 0xFFFF, 0x00EE⟩, ⟨"SYS_addr", 0xF000, 0x0000⟩,
  ⟨"JP_addr", 0xF000, 0x1000⟩, ⟨"CALL_addr", 0xF000, 0x2000⟩,
  ⟨"SE_Vx_byte", 0xF000, 0x3000⟩, ⟨"SNE_Vx_byte", 0xF000, 0x4000⟩,
  ⟨"LD_Vx_byte", 0xF000, 0x6000⟩, ⟨"ADD_Vx_byte", 0xF000, 0x7000⟩,
  ⟨"LD_I_addr", 0xF000, 0xA000⟩, ⟨"JP_V0_addr", 0xF000, 0xB000⟩,
  ⟨"RND_Vx_byte", 0xF000, 0xC000⟩, ⟨"DRW_Vx_Vy_n", 0xF000, 0xD000⟩]

/-- The rows of format XY. -/
def opcodeRowsXY : List OpcodeRow := [
  ⟨"SE_Vx_Vy", 0xF00F, 0x5000⟩, ⟨"SNE_Vx_Vy", 0xF00F, 0x9000⟩,
  ⟨"LD_Vx_Vy", 0xF00F, 0x8000⟩, ⟨"OR_Vx_Vy", 0xF00F, 0x8001⟩,
  ⟨"AND_Vx_Vy", 0xF00F, 0x8002⟩, ⟨"XOR_Vx_Vy", 0xF00F, 0x8003⟩,
  ⟨"ADD_Vx_Vy", 0xF00F, 0x8004⟩, ⟨"SUB_Vx_Vy", 0xF00F, 0x8005⟩,
  ⟨"SHR_Vx", 0xF00F, 0x8006⟩, ⟨"SUBN_Vx_Vy", 0xF00F, 0x8007⟩,
  ⟨"SHL_Vx", 0xF00F, 0x800E⟩]

/-- The rows of format X. -/
def opcodeRowsX : List OpcodeRow := [
  ⟨"SKP_Vx", 0xF0FF, 0xE09E⟩, ⟨"SKNP_Vx", 0xF0FF, 0xE0A1⟩,
  ⟨"LD_Vx_DT", 0xF0FF, 0xF007⟩, ⟨"LD_Vx_K", 0xF0FF, 0xF00A⟩,
  ⟨"LD_DT_Vx", 0xF0FF, 0xF015⟩, ⟨"LD_ST_Vx", 0xF0FF, 0xF018⟩,
  ⟨"ADD_I_Vx", 0xF0FF, 0xF01E⟩, ⟨"LD_F_Vx", 0xF0FF, 0xF029⟩]

/-- The 32 rows. -/
def opcodeTable : List OpcodeRow := opcodeRowsWide ++ opcodeRowsXY ++ opcodeRowsX

/-- The row of the table an instruction belongs to, by mnemonic. -/
def Instr.mnemonic : Instr → String
  | .sys _ => "SYS_addr"
  | .cls => "CLS"
  | .ret => "RET"
  | .jp _ => "JP_addr"
  | .call _ => "CALL_addr"
  | .seByte _ _ => "SE_Vx_byte"
  | .sneByte _ _ => "SNE_Vx_byte"
  | .seReg _ _ => "SE_Vx_Vy"
  | .sneReg _ _ => "SNE_Vx_Vy"
  | .ldByte _ _ => "LD_Vx_byte"
  | .addByte _ _ => "ADD_Vx_byte"
  | .ldReg _ _ => "LD_Vx_Vy"
  | .orReg _ _ => "OR_Vx_Vy"
  | .andReg _ _ => "AND_Vx_Vy"
  | .xorReg _ _ => "XOR_Vx_Vy"
  | .addReg _ _ => "ADD_Vx_Vy"
  | .subReg _ _ => "SUB_Vx_Vy"
  | .shr _ => "SHR_Vx"
  | .subnReg _ _ => "SUBN_Vx_Vy"
  | .shl _ => "SHL_Vx"
  | .ldI _ => "LD_I_addr"
  | .jpV0 _ => "JP_V0_addr"
  | .rnd _ _ => "RND_Vx_byte"
  | .drw _ _ _ => "DRW_Vx_Vy_n"
  | .skp _ => "SKP_Vx"
  | .sknp _ => "SKNP_Vx"
  | .ldVxDt _ => "LD_Vx_DT"
  | .ldVxK _ => "LD_Vx_K"
  | .ldDtVx _ => "LD_DT_Vx"
  | .ldStVx _ => "LD_ST_Vx"
  | .addI _ => "ADD_I_Vx"
  | .ldF _ => "LD_F_Vx"

end Sys2Proof
end

