-- ==== Sys2Proof/Config.lean ====
section
/-! DEFINITION. What an implementation fixes (00_scope.md R11) and the free values.
The record `Config` lists the parameters; its decided value is `Sys2Proof.Machine.config`
(Machine/Params.lean). The remaining parameters of R11 are carried so:
`MEM_IMAGE` is the argument of a reset; `RND_SOURCE`, `WIDE_X_DRAW` and `KEY_SELECT` are the free
values below. -/

namespace Sys2Proof

/-- `UNDEF_POLICY`: what a word that matches no instruction does (R11, D3, 93 U3). -/
inductive UndefPolicy where
  /-- An explicit no-op that advances `PC` (R105). -/
  | noOp
  /-- The model declines to give it a meaning (93 U3). -/
  | refuse
deriving DecidableEq, Repr

/-- The parameters the source leaves open and the spec decides (R11). -/
structure Config where
  /-- `SP_WIDTH`: the width of the stack pointer (R30, D7). -/
  spWidth : Nat
  /-- `UNDEF_POLICY` (R105, D3). -/
  undefPolicy : UndefPolicy
  /-- `TIMER_TICK`: whether anything but `LD DT,Vx` and `LD ST,Vx` changes the timers (R215, D21). -/
  timerTick : Bool
  /-- `SUB_EQ_FLAG`: what `SUB` and `SUBN` write to `VF` when the operands are equal (R139, D8). -/
  subEqFlag : Byte
  /-- `RET_PC_OFFSET`: what `RET` adds to the popped value (R101, D10). -/
  retPcOffset : Word
  /-- `PC_RESET` (R41, D5). -/
  pcReset : Word
  /-- `FONT_BASE`: address of the first byte of digit sprite 0 (R56, D16). -/
  fontBase : Nat
  /-- `FONT_GLYPHS`: 16 digit sprites of 5 bytes (R57, D16). -/
  fontGlyphs : Vector (Vector Byte 5) 16
deriving DecidableEq, Repr

/-- The entropy source's byte when no draw is queued: a free value (R145; log 6). -/
opaque Config.freeByte : Nat → Byte

/-- A display row after a `DRW` with `V[x] > 56`: a free value (R166; log 7). -/
opaque Config.freeRow : Nat → RowBits

/-- `VF` after a `DRW` with `V[x] > 56`: a free value (R166; log 7). -/
opaque Config.freeFlag : Nat → Byte

/-- Which of several newly pressed keys `LD Vx,K` returns: a free value (R191; log 8). -/
opaque Config.freeChoice : Nat → Nat

end Sys2Proof
end

