-- ==== Sys2Proof/Machine/Params.lean ====
section
/-! DEFINITION. The decided values of the parameters (00_scope.md R11) and the reset contents of memory. -/

namespace Sys2Proof.Machine

/-- The parameters at the values the spec decides (R11; log 10, log 11, log 12, log 16, log 22). -/
def config : Config where
  spWidth := 4
  undefPolicy := .noOp
  timerTick := false
  subEqFlag := 1
  retPcOffset := 0
  pcReset := 0x0000
  fontBase := 0x000
  fontGlyphs := #v[
    #v[0xF0, 0x90, 0x90, 0x90, 0xF0], #v[0x20, 0x60, 0x20, 0x20, 0x70],
    #v[0xF0, 0x10, 0xF0, 0x80, 0xF0], #v[0xF0, 0x10, 0xF0, 0x10, 0xF0],
    #v[0x90, 0x90, 0xF0, 0x10, 0x10], #v[0xF0, 0x80, 0xF0, 0x10, 0xF0],
    #v[0xF0, 0x80, 0xF0, 0x90, 0xF0], #v[0xF0, 0x10, 0x20, 0x40, 0x40],
    #v[0xF0, 0x90, 0xF0, 0x90, 0xF0], #v[0xF0, 0x90, 0xF0, 0x10, 0xF0],
    #v[0xF0, 0x90, 0xF0, 0x90, 0x90], #v[0xE0, 0x90, 0xE0, 0x90, 0xE0],
    #v[0xF0, 0x80, 0x80, 0x80, 0xF0], #v[0xE0, 0x90, 0x90, 0x90, 0xE0],
    #v[0xF0, 0x80, 0xF0, 0x80, 0xF0], #v[0xF0, 0x80, 0xF0, 0x80, 0x80]]

/-- The font byte at address `a`, if `a` is one of the 80 font addresses: byte `j` of the digit
sprite `d` lies at `FONT_BASE + 5*d + j` (R56). -/
def fontByte (a : Nat) : Option Byte :=
  if h : config.fontBase ≤ a ∧ a < config.fontBase + 80 then
    some ((config.fontGlyphs[(a - config.fontBase) / 5]'(by omega))[(a - config.fontBase) % 5]'(by omega))
  else none

/-- What an address that memory does not list reads as: the font byte, else the zero of a
`MEM_IMAGE` the platform did not supply (R41, R56, R58; log 9). -/
def resetByte (a : Nat) : Byte := (fontByte a).getD 0

end Sys2Proof.Machine
end

