-- ==== Sys2Proof/Machine/State.lean ====
section
/-! DEFINITION. The state of the block (10_state.md), the outside agents' state, the faults and the reset state. -/

namespace Sys2Proof.Machine

/-- The phase of the engine (R38): `ready` accepts an instruction, `waitKey` is a pending `LD Vx,K`. -/
inductive Phase where
  | ready
  | waitKey
deriving DecidableEq, Repr

/-- The kind recorded by an `AddressFault` (R200, R201). -/
inductive AddressKind where
  | mem
  | displayRow
deriving DecidableEq, Repr

/-- The kind recorded by a `StackFault` (R200, R202). -/
inductive StackKind where
  | underflow
  | overflow
deriving DecidableEq, Repr

/-- The three faults (R200). A faulting step changes no state (R206), so no state goes with one.
The model ends the run there (R235), which is safe (log 14). -/
inductive Fault where
  /-- Code 1, raised by `DRW` only: a memory address of 4096 or more, or a display row of 32 or more
  (R201). The spec's own fault; stopping is safe. -/
  | addressFault (kind : AddressKind) (index : Nat)
  /-- Code 2, raised by `RET` at `SP = 0` and `CALL` at `SP = 15` (R202). The spec's own fault;
  stopping is safe. -/
  | stackFault (kind : StackKind)
  /-- Code 3, raised by `SKP` and `SKNP` when `V[x] > 15` (R203). The spec's own fault; stopping is
  safe. -/
  | unknownKeyFault (value : Byte)
deriving DecidableEq, Repr

/-- Reasons for having no meaning. -/
inductive Refusal where
  /-- An instruction whose meaning is not written yet, by its mnemonic. Raised by no arm of `exec`
  in this model; stopping would be safe. -/
  | notModelled (mnemonic : String)
  /-- A word that matches no instruction, where `UNDEF_POLICY` is to refuse it (93 U3). Raised by
  `execUndef` under that policy only, which is not the decided one; stopping is safe. -/
  | unmatchedWord (w : Word)
deriving DecidableEq, Repr

/-- One atomic action of one agent (R182, R212). -/
inductive Action where
  /-- The engine moves: an execute step, or a wait completion if one is enabled (R190). -/
  | engine
  /-- The driver presents the word `w`, whether or not it is the one it holds for slot `PC`; the
  engine does not check its slot (R24, R234; log 23). -/
  | present (w : Word)
  /-- The optional outside agent of R215, which the parameter `TIMER_TICK` admits (log 16). -/
  | tick
  /-- The key event `set_pressed(k)` (R183). -/
  | setPressed (k : Nibble)
  /-- The key event `set_unpressed(k)` (R184). -/
  | setUnpressed (k : Nibble)
  /-- The display sink copies the framebuffer (R171). -/
  | snapshot
  /-- `reset`, with the memory image the platform supplies (R58, R230). -/
  | reset (image : List Host.Cell)
deriving DecidableEq, Repr

/-- The display: 32 rows of 64 pixels (R34). -/
abbrev Framebuffer := Vector RowBits 32

/-- The stack pointer, of width `SP_WIDTH` (R30). -/
abbrev StackPointer := BitVec config.spWidth

/-- A display row number (R34). -/
abbrev DisplayRow := Fin 32

/-- Data memory as the cells that differ from `resetByte`, addresses strictly rising (log 9). -/
abbrev Memory := List Host.Cell

/-- The driver's finite partial map from slot numbers to instruction words (R235; log 2). -/
abbrev Program := List (Word × Word)

/-- All state: the block's (R20), the outside agents', and the model's counter of free values. -/
structure State where
  /-- General registers `V[0..15]` (R21). -/
  v : Vector Byte 16
  /-- Index register `I` (R29). -/
  i : Word
  /-- Program counter, in slots (R24). -/
  pc : Word
  /-- Stack pointer (R30). -/
  sp : StackPointer
  /-- Return-address stack `STK[0..15]` (R31). -/
  stk : Vector Word 16
  /-- Delay timer (R32). -/
  dt : Byte
  /-- Sound timer (R33). -/
  st : Byte
  /-- Display (R34). -/
  fb : Framebuffer
  /-- Data memory `MEM` (R35). -/
  mem : Memory
  /-- Pressed keys `KP` (R36). -/
  kp : Word
  /-- Baseline `KB` (R37). -/
  kb : Word
  /-- `PHASE` (R38). -/
  phase : Phase
  /-- `WX`, the destination of a pending `LD Vx,K` (R38). -/
  wx : Nibble
  /-- The driver's instruction slots (R51, R235). -/
  prog : Program
  /-- The agents' actions still to come, first one first; when it is empty the engine moves (log 1). -/
  schedule : List Action
  /-- The bytes the entropy source will supply, first one first (R145; log 6). -/
  draws : List Byte
  /-- The display sink's latest snapshot (R171; log 15). -/
  frame : Option Framebuffer
  /-- The last instruction the block accepted, as its slot and word (R42, R38); the model's own
  record, read by no step (log 23). -/
  accepted : Option (Word × Word)
  /-- The model's own counter of free values used (log 6, log 7, log 8). -/
  freeCtr : Nat
deriving DecidableEq, Repr

/-- What an instruction or a step answers. -/
abbrev Result := Host.Outcome State Fault Refusal

/-- The machine right after reset with no memory image supplied (R41, R230; the last six fields are
the model's choice, log 20). -/
def State.reset : State where
  v := Vector.replicate 16 0
  i := 0
  pc := config.pcReset
  sp := 0
  stk := Vector.replicate 16 0
  dt := 0
  st := 0
  fb := Vector.replicate 32 0
  mem := []
  kp := 0
  kb := 0
  phase := .ready
  wx := 0
  prog := []
  schedule := []
  draws := []
  frame := none
  accepted := none
  freeCtr := 0

end Sys2Proof.Machine
end

