-- ==== Sys2Proof/Machine/Ops.lean ====
section
/-! DEFINITION. The named operations over memory, registers, the program counter, the stack and the
driver's slots; taking a fault; the reset. -/

namespace Sys2Proof.Machine

/-! ### Memory (20_memory.md) -/

/-- The byte at an address; an unlisted address reads as `resetByte` (R56). -/
def Memory.byteAt : Memory → Nat → Byte
  | [], a => resetByte a
  | (k, b) :: rest, a => if k = a then b else Memory.byteAt rest a

/-- List the byte `b` at `a`, replacing what was listed there. -/
def Memory.insertCell (a : Nat) (b : Byte) : Memory → Memory
  | [] => [(a, b)]
  | (k, c) :: rest =>
    if a < k then (a, b) :: (k, c) :: rest
    else if a = k then (a, b) :: rest
    else (k, c) :: Memory.insertCell a b rest

/-- List nothing at `a`. -/
def Memory.eraseCell (a : Nat) : Memory → Memory
  | [] => []
  | (k, c) :: rest => if k = a then rest else (k, c) :: Memory.eraseCell a rest

/-- Write one byte, keeping the canonical form. No instruction writes memory (R53): only the reset
does, with the platform's image (R58). -/
def Memory.write (m : Memory) (a : Nat) (b : Byte) : Memory :=
  if b = resetByte a then m.eraseCell a else m.insertCell a b

/-- Addresses strictly rise from `lo` on, stay below 4096, and no cell repeats `resetByte`. -/
def Memory.wfFrom : Nat → Memory → Bool
  | _, [] => true
  | lo, (a, b) :: rest => lo ≤ a && a < 4096 && b != resetByte a && Memory.wfFrom (a + 1) rest

/-- The canonical form of memory. -/
def Memory.wf (m : Memory) : Bool := Memory.wfFrom 0 m

/-- `MemRead(addr, 1)`: the byte, or `AddressFault(mem, addr)` outside 0..4095; the address is
never wrapped (R13, R55). -/
def Memory.read (m : Memory) (a : Nat) : Except Fault Byte :=
  if a < 4096 then .ok (m.byteAt a) else .error (.addressFault .mem a)

/-- `MEM_IMAGE[a]`: the first byte listed for `a`, else 0 (R58). -/
def imageByte : List Host.Cell → Nat → Byte
  | [], _ => 0
  | (k, b) :: rest, a => if k = a then b else imageByte rest a

/-- Memory after a reset with the platform's image: the font bytes win, and an address outside
0..4095 is no part of the image (R56, R58). -/
def Memory.ofImage : List Host.Cell → Memory
  | [] => []
  | (a, b) :: rest =>
    if a < 4096 ∧ fontByte a = none then (Memory.ofImage rest).write a b else Memory.ofImage rest

/-! ### Registers, program counter, stack -/

/-- `V[x]` (R13, R21). -/
def State.readV (s : State) (x : Nibble) : Byte := s.v[x.toNat]'x.isLt

/-- `V[x] <- b` (R13, R21). -/
def State.writeV (s : State) (x : Nibble) (b : Byte) : State :=
  { s with v := s.v.set x.toNat b x.isLt }

/-- The index of the flag register `VF` (R22). -/
abbrev vf : Nibble := 0xF#4

/-- The two writes of a flag-setting instruction: the flag first, the result last, so with `x = 15`
the result remains (R131; log 19). -/
def State.writeFlagResult (s : State) (x : Nibble) (flag result : Byte) : State :=
  (s.writeV vf flag).writeV x result

/-- `I <- a` (R29). -/
def State.setI (s : State) (a : Word) : State := { s with i := a }

/-- `PC <- p` (R24). -/
def State.setPc (s : State) (p : Word) : State := { s with pc := p }

/-- `PC <- (PC + 1) mod 2^16` (R25, R26). -/
def State.advance (s : State) : State := s.setPc (s.pc + 1)

/-- A conditional skip: `PC + 2` when the condition holds, `PC + 1` otherwise (R25, R120). -/
def State.skipIf (s : State) (c : Bool) : State :=
  if c then s.setPc (s.pc + 2) else s.advance

/-- `DT <- b` (R32). -/
def State.setDt (s : State) (b : Byte) : State := { s with dt := b }

/-- `ST <- b` (R33). -/
def State.setSt (s : State) (b : Byte) : State := { s with st := b }

/-- `FB` as a whole (R34). -/
def State.setFb (s : State) (fb : Framebuffer) : State := { s with fb := fb }

/-- The stack pointer stays in `[0, 16)` (R30). -/
theorem StackPointer.toNat_lt (p : StackPointer) : p.toNat < 16 := p.isLt

/-- `STK[j]` (R31). -/
def State.stackEntry (s : State) (j : StackPointer) : Word := s.stk[j.toNat]'j.toNat_lt

/-- `SP <- SP + 1; STK[SP] <- p`, the index being the incremented `SP` (R103). -/
def State.push (s : State) (p : Word) : State :=
  { s with sp := s.sp + 1, stk := s.stk.set (s.sp + 1).toNat p (s.sp + 1).toNat_lt }

/-- `SP <- SP - 1`; the popped entry keeps its value (R101). -/
def State.pop (s : State) : State := { s with sp := s.sp - 1 }

/-- Pixel (row `r`, column `c`) is bit `63 - c` of `FB[r]` (R34). -/
def State.pixel (s : State) (r : DisplayRow) (c : Nat) : Bool := s.fb[r].getLsbD (63 - c)

/-- Count `k` free values as used (log 6, log 7, log 8). -/
def State.useFree (s : State) (k : Nat) : State := { s with freeCtr := s.freeCtr + k }

/-! ### Faults (60_exceptions.md) -/

/-- Taking a fault: the step ends with it and no state changes; nothing is saved and control goes
nowhere (R206, R207). There is no return from a fault to model beside it (R208). -/
def raise (f : Fault) : Result := .fault f

/-- The numeric code of a fault (R200). -/
def Fault.code : Fault → Nat
  | .addressFault _ _ => 1
  | .stackFault _ => 2
  | .unknownKeyFault _ => 3

/-! ### Reset (70_reset_and_hazards.md) -/

/-- The reset: the block's state as R41 gives it, with the platform's image in memory (R230). What
the outside agents hold is not the block's and stays (log 13). -/
def State.resetBlock (s : State) (image : List Host.Cell) : State :=
  { State.reset with
    mem := Memory.ofImage image
    prog := s.prog
    schedule := s.schedule
    draws := s.draws
    frame := s.frame
    freeCtr := s.freeCtr }

/-! ### The driver's instruction slots -/

/-- `prog(p)`, if the driver holds an instruction for slot `p` (R235). -/
def Program.wordAt : Program → Word → Option Word
  | [], _ => none
  | (k, w) :: rest, p => if k = p then some w else Program.wordAt rest p

/-- The driver's map with slot `p` holding `w`. -/
def Program.setWord (prog : Program) (p w : Word) : Program :=
  (p, w) :: prog.filter (fun c => c.1 != p)

/-- The record of the instruction the block accepts, taken before it executes (R42; log 23). -/
def State.accept (s : State) (w : Word) : State := { s with accepted := some (s.pc, w) }

/-- The word the driver presents: the one it holds for slot `PC` (R24, R235). -/
def State.fetch (s : State) : Option Word := s.prog.wordAt s.pc

end Sys2Proof.Machine
end

