-- ==== Sys2Proof/Machine/Flags.lean ====
section
/-! DEFINITION. The flag computations (10_state.md R28, 42_load_alu.md) and the arithmetic beside them. -/

namespace Sys2Proof.Machine

/-- A flag is exactly 0 or 1 (R28). -/
def flagBit (c : Bool) : Byte := if c then 1 else 0

/-- The carry out of bit 7: 1 if the sum is above 255 (R138). -/
def carryFlag (a b : Byte) : Byte := flagBit (decide (a.toNat + b.toNat > 255))

/-- The no-borrow flag of `a - b`: 1 above, 0 below, the parameter `SUB_EQ_FLAG` at equality
(R139, R141). -/
def noBorrowFlag (eqFlag a b : Byte) : Byte :=
  if a.toNat > b.toNat then 1 else if a = b then eqFlag else 0

/-- The bit `SHR` shifts out (R140). -/
def lowBitFlag (a : Byte) : Byte := flagBit (a.getLsbD 0)

/-- The bit `SHL` shifts out (R142). -/
def highBitFlag (a : Byte) : Byte := flagBit (a.getLsbD 7)

/-- `abs(a - b)`, computed on integers (R139, R143). -/
def magnitude (a b : Byte) : Byte := BitVec.ofNat 8 ((a.toNat : Int) - (b.toNat : Int)).natAbs

end Sys2Proof.Machine
end

