-- ==== Sys2Proof/Machine/Operands.lean ====
section
/-! DEFINITION. The operand forms (30_encoding.md R73) and the sprite operand of `DRW`. -/

namespace Sys2Proof.Machine

/-- `zext_16(addr)`: a 12-bit address or slot number at 16 bits (R73). -/
def zextAddr (addr : Addr) : Word := addr.setWidth 16

/-- `zext_16` of a byte. -/
def zextByte (b : Byte) : Word := b.setWidth 16

/-- The key numbered by `V[x]`: its value is not masked, and above 15 it is no key (R185). -/
def State.keyOperand (s : State) (x : Nibble) : Except Fault Nibble :=
  if (s.readV x).toNat > 15 then .error (.unknownKeyFault (s.readV x))
  else .ok ((s.readV x).setWidth 4)

/-- The digit named by the low nibble of `V[x]` (R152). -/
def State.digitOperand (s : State) (x : Nibble) : Nibble := (s.readV x).setWidth 4

/-- The address of the digit sprite `d`: `FONT_BASE + 5*d` (R56, R152). -/
def digitAddress (d : Nibble) : Word := BitVec.ofNat 16 (config.fontBase + 5 * d.toNat)

/-- A display row number, or `AddressFault(display_row, r)` at 32 or more; rows neither wrap nor
clip (R164). -/
def displayRow (r : Nat) : Except Fault DisplayRow :=
  if h : r < 32 then .ok ⟨r, h⟩ else .error (.addressFault .displayRow r)

/-- The sprite of `DRW`: its `n` bytes from address `a` on, each with the display row it is drawn
on, from `r` on; or the fault of the lowest row offset, memory before display row at one offset
(R162, R164, R209). -/
def spriteStrip (m : Memory) : (a r n : Nat) → Except Fault (List (DisplayRow × Byte))
  | _, _, 0 => .ok []
  | a, r, n + 1 =>
    match m.read a with
    | .error f => .error f
    | .ok b =>
      match displayRow r with
      | .error f => .error f
      | .ok row =>
        match spriteStrip m (a + 1) (r + 1) n with
        | .error f => .error f
        | .ok rest => .ok ((row, b) :: rest)

/-- The byte of a `RND` step and the state after it is consumed: the next queued draw, else a free
value (R145; log 6). -/
def State.takeDraw (s : State) : Byte × State :=
  match s.draws with
  | b :: rest => (b, { s with draws := rest })
  | [] => (Config.freeByte s.freeCtr, s.useFree 1)

end Sys2Proof.Machine
end

