-- ==== Sys2Proof/Machine/Display.lean ====
section
/-! DEFINITION. The meanings of `CLS` and `DRW`, the exclusive-or sprite renderer, and the display
sink's snapshot (44_display.md). -/

namespace Sys2Proof.Machine

/-- `CLS` (R160). -/
def execCls (s : State) : Result := .next (s.setFb (Vector.replicate 32 0)).advance

/-- The row mask `b << (56 - x0)`, for `x0` in 0..56 (R163). -/
def rowMask (b : Byte) (x0 : Nat) : RowBits := b.setWidth 64 <<< (56 - x0)

/-- Draw the rows of a sprite in ascending order at column `x0`: the new display, and whether some
pixel that was on was turned off (R162, R165). -/
def drawStrip (x0 : Nat) : List (DisplayRow × Byte) → Framebuffer → Framebuffer × Bool
  | [], fb => (fb, false)
  | (r, b) :: rest, fb =>
    let mask := rowMask b x0
    let new := fb[r] ^^^ mask
    let after := drawStrip x0 rest (fb.set r new)
    (after.1, mask &&& ~~~new != 0 || after.2)

/-- The wide case: each row of the sprite holds a free value afterwards (R166; log 7). -/
def drawWide (ctr : Nat) : List (DisplayRow × Byte) → Framebuffer → Framebuffer
  | [], fb => fb
  | (r, _) :: rest, fb => drawWide (ctr + 1) rest (fb.set r (Config.freeRow ctr))

/-- `DRW Vx,Vy,n`: the bounds first, so that a faulting step draws nothing; then the unspecified
wide case for `V[x] > 56` and `n > 0`; else the exclusive-or draw with the collision flag (R162). -/
def execDrw (x y n : Nibble) (s : State) : Result :=
  match spriteStrip s.mem s.i.toNat (s.readV y).toNat n.toNat with
  | .error f => raise f
  | .ok strip =>
    if n.toNat > 0 ∧ (s.readV x).toNat > 56 then
      .next (((s.setFb (drawWide s.freeCtr strip s.fb)).writeV vf (Config.freeFlag s.freeCtr)).useFree
        strip.length).advance
    else
      let drawn := drawStrip (s.readV x).toNat strip s.fb
      .next ((s.setFb drawn.1).writeV vf (flagBit drawn.2)).advance

/-- The display sink takes a snapshot: a copy by value, the latest one wins, and the block is not
affected (R171; log 15). -/
def State.takeSnapshot (s : State) : State := { s with frame := some s.fb }

end Sys2Proof.Machine
end

