-- ==== Sys2Proof/Machine/Flow.lean ====
section
/-! DEFINITION. The meanings of the control flow and system instructions (40_flow.md). -/

namespace Sys2Proof.Machine

/-- `SYS addr`: a no-op; the operand is ignored (R100). -/
def execSys (_addr : Addr) (s : State) : Result := .next s.advance

/-- `RET` (R101). -/
def execRet (s : State) : Result :=
  if s.sp = 0 then raise (.stackFault .underflow)
  else .next ((s.setPc (s.stackEntry s.sp + config.retPcOffset)).pop)

/-- `JP addr` (R102). -/
def execJp (addr : Addr) (s : State) : Result := .next (s.setPc (zextAddr addr))

/-- `CALL addr`: the pushed value is the slot of this `CALL` (R103). -/
def execCall (addr : Addr) (s : State) : Result :=
  if s.sp = 15 then raise (.stackFault .overflow)
  else .next ((s.push s.pc).setPc (zextAddr addr))

/-- `JP V0,addr` (R104). -/
def execJpV0 (addr : Addr) (s : State) : Result :=
  .next (s.setPc (zextAddr addr + zextByte (s.readV 0)))

/-- `UNDEF(w)` under each `UNDEF_POLICY` (R105, 93 U3). -/
def undefEffect (policy : UndefPolicy) (w : Word) (s : State) : Result :=
  match policy with
  | .noOp => .next s.advance
  | .refuse => .refused (.unmatchedWord w)

/-- `UNDEF(w)`: an explicit no-op, as decided (R105, D3; log 12). -/
def execUndef (w : Word) (s : State) : Result := undefEffect config.undefPolicy w s

end Sys2Proof.Machine
end

