-- ==== Sys2Proof/Machine/IndexTimer.lean ====
section
/-! DEFINITION. The meanings of the index register and timer instructions (43_index_timer.md). -/

namespace Sys2Proof.Machine

/-- `LD I,addr` (R150). -/
def execLdI (addr : Addr) (s : State) : Result := .next (s.setI (zextAddr addr)).advance

/-- `ADD I,Vx`: modulo 2^16, no flag (R151). -/
def execAddI (x : Nibble) (s : State) : Result :=
  .next (s.setI (s.i + zextByte (s.readV x))).advance

/-- `LD F,Vx` (R152). -/
def execLdF (x : Nibble) (s : State) : Result :=
  .next (s.setI (digitAddress (s.digitOperand x))).advance

/-- `LD Vx,DT` (R153). -/
def execLdVxDt (x : Nibble) (s : State) : Result := .next (s.writeV x s.dt).advance

/-- `LD DT,Vx` (R154). -/
def execLdDtVx (x : Nibble) (s : State) : Result := .next (s.setDt (s.readV x)).advance

/-- `LD ST,Vx` (R155). -/
def execLdStVx (x : Nibble) (s : State) : Result := .next (s.setSt (s.readV x)).advance

/-! ### The optional tick (60_exceptions.md R215) -/

/-- `if DT > 0 then DT <- DT - 1; if ST > 0 then ST <- ST - 1` (R215). -/
def State.countDown (s : State) : State :=
  { s with
    dt := if s.dt = 0 then 0 else s.dt - 1
    st := if s.st = 0 then 0 else s.st - 1 }

/-- The step of the tick agent, where `TIMER_TICK` admits it; absent, as decided, it changes nothing
(R215, D21; log 16). -/
def State.tick (s : State) : State := if config.timerTick then s.countDown else s

end Sys2Proof.Machine
end

