-- ==== Sys2Proof/Machine/Keyboard.lean ====
section
/-! DEFINITION. The keyboard: key events, the key skips, and `LD Vx,K`, its wait and its completion
(45_keyboard.md). A key is its code 0..15, and bit `k` of a set of keys stands for key `k` (R180). -/

namespace Sys2Proof.Machine

/-! ### Key events -/

/-- `is_pressed(k)` (R181). -/
def State.keyPressed (s : State) (k : Nibble) : Bool := s.kp.getLsbD k.toNat

/-- The event `set_pressed(k)` (R183). -/
def State.pressKey (s : State) (k : Nibble) : State := { s with kp := s.kp ||| 1#16 <<< k.toNat }

/-- The event `set_unpressed(k)` (R184). -/
def State.releaseKey (s : State) (k : Nibble) : State :=
  { s with kp := s.kp &&& ~~~(1#16 <<< k.toNat) }

/-! ### SKP and SKNP -/

/-- `SKP Vx` (R186). -/
def execSkp (x : Nibble) (s : State) : Result :=
  match s.keyOperand x with
  | .error f => raise f
  | .ok k => .next (s.skipIf (s.keyPressed k))

/-- `SKNP Vx` (R187). -/
def execSknp (x : Nibble) (s : State) : Result :=
  match s.keyOperand x with
  | .error f => raise f
  | .ok k => .next (s.skipIf (!s.keyPressed k))

/-! ### LD Vx,K -/

/-- `LD Vx,K`, wait entry: the baseline is taken, the program counter stays (R188). -/
def execLdVxK (x : Nibble) (s : State) : Result :=
  .next { s with kb := s.kp, wx := x, phase := .waitKey }

/-- The newly pressed keys `KP & ~KB` (R190). -/
def State.newKeys (s : State) : Word := s.kp &&& ~~~s.kb

/-- The members of a set of keys, lowest code first. -/
def keyMembers (set : Word) : List Nibble :=
  [0, 1, 2, 3, 4, 5, 6, 7, 8, 9, 10, 11, 12, 13, 14, 15].filter fun k : Nibble => set.getLsbD k.toNat

/-- `KEY_SELECT`: a member of the set, which one the argument `choice` decides; choice 0 is the
lowest code, the spec's value for test vectors (R191; log 8). -/
def selectKey (choice : Nat) (set : Word) : Nibble :=
  match keyMembers set with
  | [] => 0
  | [k] => k
  | k :: ks => (k :: ks).getD (choice % (k :: ks).length) k

/-- `LD Vx,K`, wait completion: one newly pressed key goes to `V[WX]`, the program counter advances,
the phase is `READY` again; `KP`, `KB` and `WX` keep their values (R190). -/
def State.completeWait (s : State) : State :=
  let k := selectKey (Config.freeChoice s.freeCtr) s.newKeys
  { ((s.writeV s.wx (k.setWidth 8)).useFree 1).advance with phase := .ready }

end Sys2Proof.Machine
end

