-- ==== Sys2Proof/Machine/LoadAlu.lean ====
section
/-! DEFINITION. The meanings of the register load, arithmetic, logic, shift and random instructions
(42_load_alu.md). -/

namespace Sys2Proof.Machine

/-- `LD Vx,byte` (R132). -/
def execLdByte (x : Nibble) (byte : Byte) (s : State) : Result := .next (s.writeV x byte).advance

/-- `ADD Vx,byte`: no carry flag (R133). -/
def execAddByte (x : Nibble) (byte : Byte) (s : State) : Result :=
  .next (s.writeV x (s.readV x + byte)).advance

/-- `LD Vx,Vy` (R134). -/
def execLdReg (x y : Nibble) (s : State) : Result := .next (s.writeV x (s.readV y)).advance

/-- `OR Vx,Vy` (R135). -/
def execOrReg (x y : Nibble) (s : State) : Result :=
  .next (s.writeV x (s.readV x ||| s.readV y)).advance

/-- `AND Vx,Vy` (R136). -/
def execAndReg (x y : Nibble) (s : State) : Result :=
  .next (s.writeV x (s.readV x &&& s.readV y)).advance

/-- `XOR Vx,Vy` (R137). -/
def execXorReg (x y : Nibble) (s : State) : Result :=
  .next (s.writeV x (s.readV x ^^^ s.readV y)).advance

/-- `ADD Vx,Vy` (R138). -/
def execAddReg (x y : Nibble) (s : State) : Result :=
  .next (s.writeFlagResult x (carryFlag (s.readV x) (s.readV y)) (s.readV x + s.readV y)).advance

/-- `SUB Vx,Vy` (R139). -/
def execSubReg (x y : Nibble) (s : State) : Result :=
  .next (s.writeFlagResult x (noBorrowFlag config.subEqFlag (s.readV x) (s.readV y))
    (magnitude (s.readV x) (s.readV y))).advance

/-- `SHR Vx` (R140). -/
def execShr (x : Nibble) (s : State) : Result :=
  .next (s.writeFlagResult x (lowBitFlag (s.readV x)) (s.readV x >>> 1)).advance

/-- `SUBN Vx,Vy`: `SUB` with the operands swapped, the destination still `Vx` (R141). -/
def execSubnReg (x y : Nibble) (s : State) : Result :=
  .next (s.writeFlagResult x (noBorrowFlag config.subEqFlag (s.readV y) (s.readV x))
    (magnitude (s.readV y) (s.readV x))).advance

/-- `SHL Vx` (R142). -/
def execShl (x : Nibble) (s : State) : Result :=
  .next (s.writeFlagResult x (highBitFlag (s.readV x)) (s.readV x <<< 1)).advance

/-- `RND Vx,byte` (R144, R145). -/
def execRnd (x : Nibble) (byte : Byte) (s : State) : Result :=
  .next (s.takeDraw.2.writeV x (s.takeDraw.1 &&& byte)).advance

end Sys2Proof.Machine
end

