-- ==== Sys2Proof/Machine/Skip.lean ====
section
/-! DEFINITION. The meanings of the conditional skips on registers (41_skip.md). -/

namespace Sys2Proof.Machine

/-- `SE Vx,byte` (R121). -/
def execSeByte (x : Nibble) (byte : Byte) (s : State) : Result :=
  .next (s.skipIf (s.readV x == byte))

/-- `SNE Vx,byte` (R122). -/
def execSneByte (x : Nibble) (byte : Byte) (s : State) : Result :=
  .next (s.skipIf (s.readV x != byte))

/-- `SE Vx,Vy` (R123). -/
def execSeReg (x y : Nibble) (s : State) : Result :=
  .next (s.skipIf (s.readV x == s.readV y))

/-- `SNE Vx,Vy` (R124). -/
def execSneReg (x y : Nibble) (s : State) : Result :=
  .next (s.skipIf (s.readV x != s.readV y))

end Sys2Proof.Machine
end

