-- ==== Sys2Proof/Machine/Engine.lean ====
section
/-! DEFINITION. The engine's turn, the other agents' actions, and the order in which they move. -/

namespace Sys2Proof.Machine

/-- Execute a presented word: its instruction, or `UNDEF` (R70, R75, R105). -/
def execWord (w : Word) (s : State) : Result :=
  match decode w with
  | .instr i => exec i (s.accept w)
  | .undef u => execUndef u (s.accept w)

/-- The engine moves. In `READY` it executes the word the driver presents for slot `PC`, and where
there is none it receives no instruction (R235; log 3). In `WAITKEY` it accepts no instruction: the
wait completes if a new key is down (R190), else nothing changes (R189; log 4). -/
def engineTurn (s : State) : Result :=
  match s.phase with
  | .ready =>
    match s.fetch with
    | some w => execWord w s
    | none => .next s
  | .waitKey => if s.newKeys = 0 then .next s else .next s.completeWait

/-- The driver presents a word: in `READY` the engine executes it, from whatever slot it comes; in
`WAITKEY` the engine accepts no instruction (R189, R234; log 23). -/
def presentWord (w : Word) (s : State) : Result :=
  match s.phase with
  | .ready => execWord w s
  | .waitKey => .next s

/-- One action of one agent (R182, R212). -/
def act (a : Action) (s : State) : Result :=
  match a with
  | .engine => engineTurn s
  | .present w => presentWord w s
  | .tick => .next s.tick
  | .setPressed k => .next (s.pressKey k)
  | .setUnpressed k => .next (s.releaseKey k)
  | .snapshot => .next s.takeSnapshot
  | .reset image => .next (s.resetBlock image)

/-- The next action of the schedule happens; when the schedule is used up the engine moves (log 1). -/
def turn (s : State) : Result :=
  match s.schedule with
  | [] => engineTurn s
  | a :: rest => act a { s with schedule := rest }

/-- `s` with `w` as the very next instruction the engine executes: the driver holds it for slot `PC`,
no wait is pending, and the engine moves next (log 2). -/
def State.placeWord (s : State) (w : Word) : State :=
  { s with
    prog := s.prog.setWord s.pc w
    phase := .ready
    schedule := match s.schedule with
      | [] => []
      | a :: rest => .engine :: a :: rest }

end Sys2Proof.Machine
end

