-- ==== Sys2Proof/Machine/Step.lean ====
section
/-! DEFINITION. One step of the machine, and placing the next instruction. -/

namespace Sys2Proof.Machine

/-- One atomic action of the agent whose turn it is (R182). -/
def step (s : State) : Host.Outcome State Fault Refusal := turn s

/-- `s` with the 16-bit word `w` where step fetches its next instruction (log 2). -/
def State.withFetchWord (s : State) (nbits w : Nat) : State :=
  s.placeWord (BitVec.ofNat 16 (w % 2 ^ nbits))

end Sys2Proof.Machine
end

