-- ==== Sys2Proof/Machine/Channels.lean ====
section
/-! DEFINITION. The output channels of the block (00_scope.md R9, 10_state.md R43): `pc`, `dt`, `st`
and `fb` are the fields of those names; `outcome` is `report`. -/

namespace Sys2Proof.Machine

/-- What an execute step returns on the `outcome` channel (R9). -/
inductive Report where
  | ok
  | waiting
  | fault (code : Nat) (info : Fault)
deriving DecidableEq, Repr

/-- The report of an execute step: `waiting` after a wait entry, `fault` with its code (R188, R200,
R206), `ok` otherwise. A refusal is no behaviour of the block. -/
def report : Result → Option Report
  | .next t => some (if t.phase = .waitKey then .waiting else .ok)
  | .fault f => some (.fault f.code f)
  | .refused _ => none

end Sys2Proof.Machine
end

