-- ==== Sys2Proof/Safety.lean ====
section
/-! DEFINITION. What counts as a safe run, the invariant, and the terms in which claims are stated. -/

namespace Sys2Proof.Machine

/-! ### Runs -/

/-- `k` steps end in no fault and no refusal. -/
def FaultFree (k : Nat) (s : State) : Prop := ∃ t, Sys2Proof.core.run k s = .next t

/-- A run has ended normally: the engine is ready and the driver holds no instruction for slot `PC`,
whatever the other agents still do (R235). -/
def State.ended (s : State) : Bool := s.phase == .ready && s.fetch.isNone

/-- After `k` steps the run from `s` is at `t`, and it had not ended at any moment before (R235). -/
def RunsTo (k : Nat) (s t : State) : Prop :=
  Sys2Proof.core.run k s = .next t ∧
  ∀ j < k, ∀ u, Sys2Proof.core.run j s = .next u → u.ended = false

/-- The run from `s` ends normally after `k` steps, with the end state `t` (R235). -/
def EndsNormally (k : Nat) (s t : State) : Prop := RunsTo k s t ∧ t.ended = true

/-- The run from `s` ends abnormally: after `k` steps it is at `t`, and the next step faults (R235). -/
def EndsByFault (k : Nat) (s t : State) (f : Fault) : Prop :=
  RunsTo k s t ∧ t.ended = false ∧ step t = .fault f

/-- The next step executes the word `w`: the engine is ready, and either moves next on the word of
slot `PC`, or the driver presents `w` (R24, R234). -/
def Executes (s : State) (w : Word) : Prop :=
  s.phase = .ready ∧
  (((s.schedule = [] ∨ ∃ rest, s.schedule = .engine :: rest) ∧ s.fetch = some w) ∨
    ∃ rest, s.schedule = .present w :: rest)

/-- Execute decoded instructions one after the other, up to the first fault. -/
def execAll : List Instr → State → Result
  | [], s => .next s
  | i :: rest, s =>
    match exec i s with
    | .next t => execAll rest t
    | .fault f => .fault f
    | .refused r => .refused r

/-! ### The invariant -/

/-- While the engine waits, the last accepted instruction was `LD Vx,K` with `x = WX`, and `PC` is
still its slot (R42). -/
def State.WaitsForItsInstruction (s : State) : Prop :=
  s.phase = .waitKey → ∃ w, s.accepted = some (s.pc, w) ∧ decode w = .instr (.ldVxK s.wx)

/-- The invariant of every reachable state (R42): memory in its canonical form with the font in its
place (R53, R56), `STK[0] = 0`, and a pending wait belongs to the last accepted instruction, of slot
`PC`. The bounds of R42 are the fields' widths. -/
structure State.Inv (s : State) : Prop where
  memory : s.mem.wf = true
  font : ∀ (d : Fin 16) (j : Fin 5),
    s.mem.byteAt (config.fontBase + 5 * d.val + j.val) = config.fontGlyphs[d][j]
  stackBottom : s.stackEntry 0 = 0
  waiting : s.WaitsForItsInstruction

/-! ### Frames and results -/

/-- Every register but those listed, and every byte of memory, reads as before. -/
def SameBut (written : List Nibble) (s t : State) : Prop :=
  (∀ r, r ∉ written → t.readV r = s.readV r) ∧ (∀ a, t.mem.byteAt a = s.mem.byteAt a)

/-- Only the listed general registers and the program counter may differ. -/
def RegisterFrame (written : List Nibble) (s t : State) : Prop :=
  SameBut written s t ∧ t = { s with v := t.v, pc := t.pc }

/-- The instruction completes, leaves `value` in `V[x]`, advances by one slot and changes nothing else. -/
def WritesRegister (i : Instr) (x : Nibble) (value : Byte) (s : State) : Prop :=
  ∃ t, exec i s = .next t ∧ t.readV x = value ∧ t.pc = s.pc + 1 ∧ RegisterFrame [x] s t

/-- The instruction completes, leaves `result` in `V[x]` and, where `x` is not 15, `flag` in `VF`,
advances by one slot and changes nothing else (R131). -/
def WritesFlagAndRegister (i : Instr) (x : Nibble) (flag result : Byte) (s : State) : Prop :=
  ∃ t, exec i s = .next t ∧ t.readV x = result ∧ (x ≠ vf → t.readV vf = flag) ∧
    t.pc = s.pc + 1 ∧ RegisterFrame [vf, x] s t

/-- The general registers an execute step writes (the table of R23; `LD Vx,K` writes `Vx` at its
completion, not at its entry). -/
def writesOf : Instr → List Nibble
  | .ldByte x _ | .addByte x _ | .ldReg x _ | .orReg x _ | .andReg x _ | .xorReg x _ | .rnd x _
  | .ldVxDt x => [x]
  | .addReg x _ | .subReg x _ | .subnReg x _ | .shr x | .shl x => [vf, x]
  | .drw _ _ _ => [vf]
  | .seByte _ _ | .sneByte _ _ | .seReg _ _ | .sneReg _ _ | .jpV0 _ | .skp _ | .sknp _ | .ldVxK _
  | .ldDtVx _ | .ldStVx _ | .addI _ | .ldF _ | .sys _ | .cls | .ret | .jp _ | .call _ | .ldI _ => []

/-- How an instruction moves the program counter (R25). -/
inductive PcMove where
  /-- It sets `PC` itself. -/
  | sets
  /-- By two slots when its condition holds, by one otherwise. -/
  | skip
  /-- By one slot, when its wait completes. -/
  | atCompletion
  /-- By exactly one slot. -/
  | oneSlot
deriving DecidableEq, Repr

/-- The four instructions that set `PC`, the six skips, `LD Vx,K`, and every other one (R25). -/
def pcMove : Instr → PcMove
  | .jp _ | .call _ | .ret | .jpV0 _ => .sets
  | .seByte _ _ | .sneByte _ _ | .seReg _ _ | .sneReg _ _ | .skp _ | .sknp _ => .skip
  | .ldVxK _ => .atCompletion
  | .sys _ | .cls | .ldByte _ _ | .addByte _ _ | .ldReg _ _ | .orReg _ _ | .andReg _ _
  | .xorReg _ _ | .addReg _ _ | .subReg _ _ | .shr _ | .subnReg _ _ | .shl _ | .ldI _ | .rnd _ _
  | .drw _ _ _ | .ldVxDt _ | .ldDtVx _ | .ldStVx _ | .addI _ | .ldF _ => .oneSlot

/-! ### DRW -/

/-- Row offset `k` of a sprite breaks a bound of `DRW` (R164): its byte lies outside memory, or its
row outside the display. -/
def BreaksBound (s : State) (y : Nibble) (k : Nat) : Prop :=
  4096 ≤ s.i.toNat + k ∨ 32 ≤ (s.readV y).toNat + k

/-- No row offset below `n` breaks a bound; for `n = 0` there is none to break (R164). -/
def InBounds (s : State) (y n : Nibble) : Prop := ∀ k < n.toNat, ¬BreaksBound s y k

/-- Instruction `i` raises `f` in `s`: which instruction can raise what, and when (R201 to R205, R209). -/
def RaisesFault (i : Instr) (s : State) (f : Fault) : Prop :=
  (i = .ret ∧ s.sp = 0 ∧ f = .stackFault .underflow) ∨
  (∃ addr, i = .call addr ∧ s.sp = 15 ∧ f = .stackFault .overflow) ∨
  (∃ x y n k, i = .drw x y n ∧ k < n.toNat ∧ BreaksBound s y k ∧ (∀ j < k, ¬BreaksBound s y j) ∧
    f = if 4096 ≤ s.i.toNat + k then .addressFault .mem (s.i.toNat + k)
      else .addressFault .displayRow ((s.readV y).toNat + k)) ∨
  ∃ x, (i = .skp x ∨ i = .sknp x) ∧ 15 < (s.readV x).toNat ∧ f = .unknownKeyFault (s.readV x)

/-- Display row `r` is one of the `n` rows from `V[y]` on. -/
def OnSpriteRow (s : State) (y n : Nibble) (r : DisplayRow) : Prop :=
  (s.readV y).toNat ≤ r.val ∧ r.val < (s.readV y).toNat + n.toNat

/-- The sprite byte drawn on row `r`. -/
def spriteByteOf (s : State) (y : Nibble) (r : DisplayRow) : Byte :=
  s.mem.byteAt (s.i.toNat + (r.val - (s.readV y).toNat))

/-- The mask of row `r`: the sprite byte times `2^(56 - V[x])` (R163). -/
def maskOf (s : State) (x y : Nibble) (r : DisplayRow) : RowBits :=
  BitVec.ofNat 64 ((spriteByteOf s y r).toNat * 2 ^ (56 - (s.readV x).toNat))

end Sys2Proof.Machine
end

