-- ==== Sys2Proof/Certificates/Slice0/Obligations.lean ====
section
/-! DEFINITION. The statements for the provers. Each docstring names the rule of spec/ or the section it formalises. -/

open Sys2Proof Sys2Proof.Machine

/-! ### Reset -/

/-- 10_state.md section 7 with decisions D5 and D18: what a reset leaves of the block, whatever image
the platform supplies; with no image it is the reset state (memory: the next statement). -/
def Obligations.ResetGivesTheResetValues : Prop :=
  State.reset.resetBlock [] = State.reset ∧
  ∀ (s : State) (image : List Host.Cell),
    (∀ x, (s.resetBlock image).readV x = 0) ∧ (s.resetBlock image).i = 0 ∧
    (s.resetBlock image).pc = config.pcReset ∧ (s.resetBlock image).sp = 0 ∧
    (∀ j, (s.resetBlock image).stackEntry j = 0) ∧ (s.resetBlock image).dt = 0 ∧
    (s.resetBlock image).st = 0 ∧ (∀ r : DisplayRow, (s.resetBlock image).fb[r] = 0) ∧
    (s.resetBlock image).kp = 0 ∧ (s.resetBlock image).kb = 0 ∧
    (s.resetBlock image).phase = .ready ∧ (s.resetBlock image).wx = 0

/-- 20_memory.md section 3 with decisions D16 and D17: after a reset memory holds the font at
`FONT_BASE`, the platform's image elsewhere, and is in canonical form. -/
def Obligations.ResetMemoryIsTheFontOverTheImage : Prop :=
  ∀ (s : State) (image : List Host.Cell),
    (s.resetBlock image).mem.wf = true ∧
    (∀ (d : Fin 16) (j : Fin 5),
      (s.resetBlock image).mem.byteAt (config.fontBase + 5 * d.val + j.val) =
        config.fontGlyphs[d][j]) ∧
    (∀ a < 4096, a < config.fontBase ∨ config.fontBase + 80 ≤ a →
      (s.resetBlock image).mem.byteAt a = imageByte image a)

/-- 70_reset_and_hazards.md section 1 with decision D18, and log 13 (what the outside agents hold
stays): the reset action gives the reset state from any state, also from a pending wait. -/
def Obligations.ResetActionEndsAnyWait : Prop :=
  ∀ (s : State) (image : List Host.Cell) (rest : List Action), s.schedule = .reset image :: rest →
    ∃ t, step s = .next t ∧ t.phase = .ready ∧ t.kp = 0 ∧ t.kb = 0 ∧ t.pc = config.pcReset ∧
      t = { State.reset with
            mem := Memory.ofImage image, prog := s.prog, schedule := rest, draws := s.draws,
            frame := s.frame, freeCtr := s.freeCtr }

/-! ### Load, arithmetic, logic, shift, random -/

/-- R132 to R137: the result, the word, and the frame of the forms without a flag. `VF` keeps its
value unless it is `V[x]`. -/
def Obligations.LoadAndLogicResults : Prop :=
  ∀ (s : State) (x y : Nibble) (byte : Byte),
    WritesRegister (.ldByte x byte) x byte s ∧
    WritesRegister (.addByte x byte) x (BitVec.ofNat 8 ((s.readV x).toNat + byte.toNat)) s ∧
    WritesRegister (.ldReg x y) x (s.readV y) s ∧
    WritesRegister (.orReg x y) x (s.readV x ||| s.readV y) s ∧
    WritesRegister (.andReg x y) x (s.readV x &&& s.readV y) s ∧
    WritesRegister (.xorReg x y) x (s.readV x ^^^ s.readV y) s ∧
    decode (0x6#4 ++ x ++ byte) = .instr (.ldByte x byte) ∧
    decode (0x7#4 ++ x ++ byte) = .instr (.addByte x byte) ∧
    decode (0x8#4 ++ x ++ y ++ 0x0#4) = .instr (.ldReg x y) ∧
    decode (0x8#4 ++ x ++ y ++ 0x1#4) = .instr (.orReg x y) ∧
    decode (0x8#4 ++ x ++ y ++ 0x2#4) = .instr (.andReg x y) ∧
    decode (0x8#4 ++ x ++ y ++ 0x3#4) = .instr (.xorReg x y)

/-- R138, R140, R142: result and flag of `ADD Vx,Vy`, `SHR Vx`, `SHL Vx`, for `x = 15` too. -/
def Obligations.FlaggedAddAndShiftResults : Prop :=
  ∀ (s : State) (x y : Nibble),
    WritesFlagAndRegister (.addReg x y) x
      (if (s.readV x).toNat + (s.readV y).toNat > 255 then 1 else 0)
      (BitVec.ofNat 8 ((s.readV x).toNat + (s.readV y).toNat)) s ∧
    WritesFlagAndRegister (.shr x) x (if (s.readV x).toNat % 2 = 1 then 1 else 0)
      (BitVec.ofNat 8 ((s.readV x).toNat / 2)) s ∧
    WritesFlagAndRegister (.shl x) x (if (s.readV x).toNat ≥ 128 then 1 else 0)
      (BitVec.ofNat 8 (2 * (s.readV x).toNat)) s ∧
    decode (0x8#4 ++ x ++ y ++ 0x4#4) = .instr (.addReg x y) ∧
    decode (0x8#4 ++ x ++ y ++ 0x6#4) = .instr (.shr x) ∧
    decode (0x8#4 ++ x ++ y ++ 0xE#4) = .instr (.shl x)

/-- 42_load_alu.md section 4 with decision D8: `SUB` and `SUBN` leave the magnitude of the difference
and the no-borrow flag, `SUB_EQ_FLAG` at equality. -/
def Obligations.SubtractionLeavesTheMagnitude : Prop :=
  ∀ (s : State) (x y : Nibble),
    WritesFlagAndRegister (.subReg x y) x
      (if (s.readV x).toNat > (s.readV y).toNat then 1
        else if (s.readV x).toNat = (s.readV y).toNat then config.subEqFlag else 0)
      (BitVec.ofNat 8 (max (s.readV x).toNat (s.readV y).toNat -
        min (s.readV x).toNat (s.readV y).toNat)) s ∧
    WritesFlagAndRegister (.subnReg x y) x
      (if (s.readV y).toNat > (s.readV x).toNat then 1
        else if (s.readV y).toNat = (s.readV x).toNat then config.subEqFlag else 0)
      (BitVec.ofNat 8 (max (s.readV x).toNat (s.readV y).toNat -
        min (s.readV x).toNat (s.readV y).toNat)) s

/-- 42_load_alu.md section 6, and log 6 (the queue, the free value and its counter are the model's
form of the spec's input): `RND` leaves the draw masked with the byte; the draw is the next queued
byte, which is consumed, else a free value, which is counted. -/
def Obligations.RandomMasksOneDraw : Prop :=
  ∀ (s : State) (x : Nibble) (byte : Byte),
    decode (0xC#4 ++ x ++ byte) = .instr (.rnd x byte) ∧
    (∀ (r : Byte) (rest : List Byte), s.draws = r :: rest →
      ∃ t, exec (.rnd x byte) s = .next t ∧ t.readV x = r &&& byte ∧ t.pc = s.pc + 1 ∧
        SameBut [x] s t ∧ t = { s with v := t.v, pc := t.pc, draws := rest }) ∧
    (s.draws = [] →
      ∃ t r, exec (.rnd x byte) s = .next t ∧ t.readV x = r &&& byte ∧ t.pc = s.pc + 1 ∧
        SameBut [x] s t ∧ t = { s with v := t.v, pc := t.pc, freeCtr := s.freeCtr + 1 })

/-! ### Control flow and skips -/

/-- R100, R102, R104: `SYS` is a no-op, the jumps set the program counter, nothing else changes. -/
def Obligations.JumpAndNoOpResults : Prop :=
  ∀ (s : State) (addr : Addr),
    exec (.sys addr) s = .next { s with pc := s.pc + 1 } ∧
    exec (.jp addr) s = .next { s with pc := BitVec.ofNat 16 addr.toNat } ∧
    exec (.jpV0 addr) s =
      .next { s with pc := BitVec.ofNat 16 (addr.toNat + (s.readV 0).toNat) } ∧
    addr.toNat + (s.readV 0).toNat ≤ 0x10FE ∧
    (addr ≠ 0x0E0#12 → addr ≠ 0x0EE#12 → decode (0x0#4 ++ addr) = .instr (.sys addr)) ∧
    decode (0x1#4 ++ addr) = .instr (.jp addr) ∧
    decode (0xB#4 ++ addr) = .instr (.jpV0 addr)

/-- R103: `CALL` pushes its own slot above the stack pointer and jumps; at `SP = 15` it faults. -/
def Obligations.CallPushesItsOwnSlot : Prop :=
  ∀ (s : State) (addr : Addr),
    decode (0x2#4 ++ addr) = .instr (.call addr) ∧
    (s.sp = 15 → exec (.call addr) s = .fault (.stackFault .overflow)) ∧
    (s.sp ≠ 15 →
      ∃ t, exec (.call addr) s = .next t ∧ t.sp.toNat = s.sp.toNat + 1 ∧
        t.stackEntry t.sp = s.pc ∧ (∀ j, j ≠ t.sp → t.stackEntry j = s.stackEntry j) ∧
        t.pc = BitVec.ofNat 16 addr.toNat ∧ SameBut [] s t ∧
        t = { s with sp := t.sp, stk := t.stk, pc := t.pc })

/-- 40_flow.md, `RET`, with decision D10: `RET` continues at the popped slot plus `RET_PC_OFFSET` and
keeps the popped entry; at `SP = 0` it faults. -/
def Obligations.RetPopsTheSavedSlot : Prop :=
  ∀ s : State,
    (s.sp = 0 → exec .ret s = .fault (.stackFault .underflow)) ∧
    (s.sp ≠ 0 →
      ∃ t, exec .ret s = .next t ∧ t.sp.toNat + 1 = s.sp.toNat ∧
        t.pc = s.stackEntry s.sp + config.retPcOffset ∧ SameBut [] s t ∧
        t = { s with sp := t.sp, pc := t.pc })

/-- 40_flow.md, the consequence of `RET` and `CALL` taken together: a `CALL` followed at once by its
`RET` is back at the slot of the `CALL` (plus `RET_PC_OFFSET`), at the old depth, and no entry at or
below that depth has changed. -/
def Obligations.ReturnLandsOnTheCall : Prop :=
  ∀ (s : State) (addr : Addr), s.sp ≠ 15 →
    ∃ t, execAll [.call addr, .ret] s = .next t ∧ t.pc = s.pc + config.retPcOffset ∧ t.sp = s.sp ∧
      (∀ j, j ≤ s.sp → t.stackEntry j = s.stackEntry j) ∧ t = { s with pc := t.pc, stk := t.stk }

/-- 10_state.md, the stack: from depth `SP` exactly `15 - SP` nested calls succeed, whatever their
targets, none changes an entry at or below `SP`, and the next one faults. -/
def Obligations.FifteenNestedCallsFit : Prop :=
  ∀ (targets : List Addr) (s : State),
    (s.sp.toNat + targets.length ≤ 15 →
      ∃ t, execAll (targets.map .call) s = .next t ∧
        t.sp.toNat = s.sp.toNat + targets.length ∧
        (∀ j, j ≤ s.sp → t.stackEntry j = s.stackEntry j)) ∧
    (15 < s.sp.toNat + targets.length →
      execAll (targets.map .call) s = .fault (.stackFault .overflow))

/-- R121 to R124: each register skip moves by two slots when its condition holds, by one otherwise,
and changes nothing else. -/
def Obligations.SkipResults : Prop :=
  ∀ (s : State) (x y : Nibble) (byte : Byte),
    exec (.seByte x byte) s =
      .next { s with pc := if s.readV x = byte then s.pc + 2 else s.pc + 1 } ∧
    exec (.sneByte x byte) s =
      .next { s with pc := if s.readV x ≠ byte then s.pc + 2 else s.pc + 1 } ∧
    exec (.seReg x y) s =
      .next { s with pc := if s.readV x = s.readV y then s.pc + 2 else s.pc + 1 } ∧
    exec (.sneReg x y) s =
      .next { s with pc := if s.readV x ≠ s.readV y then s.pc + 2 else s.pc + 1 } ∧
    decode (0x3#4 ++ x ++ byte) = .instr (.seByte x byte) ∧
    decode (0x4#4 ++ x ++ byte) = .instr (.sneByte x byte) ∧
    decode (0x5#4 ++ x ++ y ++ 0x0#4) = .instr (.seReg x y) ∧
    decode (0x9#4 ++ x ++ y ++ 0x0#4) = .instr (.sneReg x y)

/-- R186, R187: the key skips test the key numbered by `V[x]`, change nothing else, and fault when
`V[x]` is above 15. -/
def Obligations.KeySkipResults : Prop :=
  ∀ (s : State) (x : Nibble),
    ((s.readV x).toNat ≤ 15 →
      exec (.skp x) s = .next { s with
        pc := if s.kp.getLsbD (s.readV x).toNat = true then s.pc + 2 else s.pc + 1 } ∧
      exec (.sknp x) s = .next { s with
        pc := if s.kp.getLsbD (s.readV x).toNat = false then s.pc + 2 else s.pc + 1 }) ∧
    (15 < (s.readV x).toNat →
      exec (.skp x) s = .fault (.unknownKeyFault (s.readV x)) ∧
      exec (.sknp x) s = .fault (.unknownKeyFault (s.readV x))) ∧
    decode (0xE#4 ++ x ++ 0x9E#8) = .instr (.skp x) ∧
    decode (0xE#4 ++ x ++ 0xA1#8) = .instr (.sknp x)

/-! ### Index register and timers -/

/-- R150, R153, R154, R155: the loads of `I` and of the timers, and the read of `DT`. -/
def Obligations.IndexLoadAndTimerResults : Prop :=
  ∀ (s : State) (x : Nibble) (addr : Addr),
    exec (.ldI addr) s = .next { s with i := BitVec.ofNat 16 addr.toNat, pc := s.pc + 1 } ∧
    WritesRegister (.ldVxDt x) x s.dt s ∧
    exec (.ldDtVx x) s = .next { s with dt := s.readV x, pc := s.pc + 1 } ∧
    exec (.ldStVx x) s = .next { s with st := s.readV x, pc := s.pc + 1 } ∧
    decode (0xA#4 ++ addr) = .instr (.ldI addr) ∧
    decode (0xF#4 ++ x ++ 0x07#8) = .instr (.ldVxDt x) ∧
    decode (0xF#4 ++ x ++ 0x15#8) = .instr (.ldDtVx x) ∧
    decode (0xF#4 ++ x ++ 0x18#8) = .instr (.ldStVx x)

/-- 43_index_timer.md with decisions D26 and D16: `ADD I,Vx` wraps modulo 2^16 and sets no flag;
`LD F,Vx` takes the low nibble only. -/
def Obligations.IndexAddAndDigitAddressResults : Prop :=
  ∀ (s : State) (x : Nibble),
    exec (.addI x) s =
      .next { s with i := BitVec.ofNat 16 (s.i.toNat + (s.readV x).toNat), pc := s.pc + 1 } ∧
    exec (.ldF x) s =
      .next { s with
        i := BitVec.ofNat 16 (config.fontBase + 5 * ((s.readV x).toNat % 16)), pc := s.pc + 1 }

/-- 43_index_timer.md and 20_memory.md section 3 with decision D16: after `LD F,Vx` the five bytes
from `I` on are the digit sprite of the low nibble of `V[x]`. The bytes are the parameter
`FONT_GLYPHS`; the premise is the invariant, which two statements below are about. -/
def Obligations.DigitAddressPointsAtItsGlyph : Prop :=
  ∀ (s : State) (x : Nibble) (d : Fin 16), s.Inv → d.val = (s.readV x).toNat % 16 →
    ∃ t, exec (.ldF x) s = .next t ∧
      ∀ j : Fin 5, t.mem.byteAt (t.i.toNat + j.val) = config.fontGlyphs[d][j]

/-! ### Display -/

/-- R160: `CLS` turns every pixel off and changes nothing else but the program counter. -/
def Obligations.ClearScreenResult : Prop :=
  decode 0x00E0#16 = .instr .cls ∧
  ∀ s : State, ∃ t, exec .cls s = .next t ∧ (∀ r : DisplayRow, t.fb[r] = 0) ∧
    t.pc = s.pc + 1 ∧ SameBut [] s t ∧ t = { s with fb := t.fb, pc := t.pc }

/-- R163, R165: a `DRW` inside the display combines each of its rows with its mask by exclusive or,
leaves the other rows, and `VF` says whether some pixel that was on was turned off. -/
def Obligations.DrawXorsTheRowMasks : Prop :=
  ∀ (s : State) (x y n : Nibble), InBounds s y n → (s.readV x).toNat ≤ 56 →
    ∃ t, exec (.drw x y n) s = .next t ∧
      (∀ r, OnSpriteRow s y n r → t.fb[r] = s.fb[r] ^^^ maskOf s x y r) ∧
      (∀ r, ¬OnSpriteRow s y n r → t.fb[r] = s.fb[r]) ∧
      (∀ r, (maskOf s x y r).toNat =
        (spriteByteOf s y r).toNat * 2 ^ (56 - (s.readV x).toNat)) ∧
      ((t.readV vf = 1 ∧ ∃ r, OnSpriteRow s y n r ∧ maskOf s x y r &&& ~~~t.fb[r] ≠ 0) ∨
        (t.readV vf = 0 ∧ ∀ r, OnSpriteRow s y n r → maskOf s x y r &&& ~~~t.fb[r] = 0)) ∧
      (∀ r, OnSpriteRow s y n r →
        maskOf s x y r &&& ~~~t.fb[r] = maskOf s x y r &&& s.fb[r]) ∧
      t.pc = s.pc + 1 ∧ SameBut [vf] s t ∧ t = { s with fb := t.fb, v := t.v, pc := t.pc }

/-- 44_display.md section 2, pixel by pixel: `DRW` toggles the pixel at row `V[y] + i`, column
`V[x] + 7 - j` exactly when bit `j` of sprite byte `i` is 1, and no other pixel. -/
def Obligations.DrawTogglesExactlyTheSpritePixels : Prop :=
  ∀ (s : State) (x y n : Nibble), InBounds s y n → (s.readV x).toNat ≤ 56 →
    ∃ t, exec (.drw x y n) s = .next t ∧
      (∀ r j, OnSpriteRow s y n r → j < 8 →
        t.pixel r ((s.readV x).toNat + 7 - j) =
          (s.pixel r ((s.readV x).toNat + 7 - j) ^^ (spriteByteOf s y r).getLsbD j)) ∧
      (∀ r c, c < 64 →
        ¬OnSpriteRow s y n r ∨ c < (s.readV x).toNat ∨ (s.readV x).toNat + 7 < c →
        t.pixel r c = s.pixel r c)

/-- 44_display.md, what a program can rely on from exclusive-or drawing: the same `DRW` twice
restores the display, and the second one reports a collision exactly when the first one turned a
pixel on. The registers `x` and `y` are not `VF`, which the first draw overwrites. -/
def Obligations.DrawingTwiceRestoresTheDisplay : Prop :=
  ∀ (s : State) (x y n : Nibble), x ≠ vf → y ≠ vf → InBounds s y n → (s.readV x).toNat ≤ 56 →
    ∃ t u, exec (.drw x y n) s = .next t ∧ exec (.drw x y n) t = .next u ∧ u.fb = s.fb ∧
      (u.readV vf = 1 ↔ ∃ r c, c < 64 ∧ s.pixel r c = false ∧ t.pixel r c = true) ∧
      (u.readV vf = 0 ∨ u.readV vf = 1)

/-- 44_display.md, `n = 0`: nothing is read or drawn, `VF` becomes 0, and nothing can fault, whatever
`I`, `V[x]` and `V[y]` hold. -/
def Obligations.DrawOfHeightZeroClearsTheFlag : Prop :=
  ∀ (s : State) (x y : Nibble),
    ∃ t, exec (.drw x y 0) s = .next t ∧ t.readV vf = 0 ∧ t.pc = s.pc + 1 ∧ RegisterFrame [vf] s t

/-- 44_display.md, the faults of `DRW`, with decisions D11 and D13: the lowest row offset that breaks
a bound is reported, the memory bound before the row bound; a broken bound comes before the wide
case (nothing is assumed of `V[x]`). -/
def Obligations.DrawReportsTheLowestBrokenBound : Prop :=
  ∀ (s : State) (x y n : Nibble) (k : Nat), k < n.toNat → BreaksBound s y k →
    (∀ j < k, ¬BreaksBound s y j) →
    (4096 ≤ s.i.toNat + k →
      exec (.drw x y n) s = .fault (.addressFault .mem (s.i.toNat + k))) ∧
    (s.i.toNat + k < 4096 →
      exec (.drw x y n) s = .fault (.addressFault .displayRow ((s.readV y).toNat + k)))

/-- 44_display.md, `V[x] > 56`, with decision D15 and log 7: the step does not fault; only the
sprite's rows and `VF` may hold anything, and the program counter advances. -/
def Obligations.WideDrawChangesOnlyItsRowsAndFlag : Prop :=
  ∀ (s : State) (x y n : Nibble), InBounds s y n → 56 < (s.readV x).toNat → n ≠ 0 →
    ∃ t, exec (.drw x y n) s = .next t ∧ (∀ r, ¬OnSpriteRow s y n r → t.fb[r] = s.fb[r]) ∧
      t.pc = s.pc + 1 ∧ SameBut [vf] s t ∧
      t = { s with fb := t.fb, v := t.v, pc := t.pc, freeCtr := t.freeCtr }

/-- 44_display.md section 4 with decision D23, and log 15: a snapshot copies the framebuffer and
affects nothing of the block. -/
def Obligations.SnapshotLeavesTheBlockAlone : Prop :=
  ∀ (s : State) (rest : List Action), s.schedule = .snapshot :: rest →
    step s = .next { s with schedule := rest, frame := some s.fb }

/-! ### Keyboard -/

/-- R183, R184: a key event changes one key, in either phase, and nothing else. -/
def Obligations.KeyEventsChangeOneKey : Prop :=
  ∀ (s : State) (k : Nibble) (rest : List Action),
    (s.schedule = .setPressed k :: rest →
      ∃ t, step s = .next t ∧
        (∀ j : Nibble, t.kp.getLsbD j.toNat = if j = k then true else s.kp.getLsbD j.toNat) ∧
        t = { s with kp := t.kp, schedule := rest }) ∧
    (s.schedule = .setUnpressed k :: rest →
      ∃ t, step s = .next t ∧
        (∀ j : Nibble, t.kp.getLsbD j.toNat = if j = k then false else s.kp.getLsbD j.toNat) ∧
        t = { s with kp := t.kp, schedule := rest })

/-- R188: the wait entry takes the baseline, remembers `x`, changes nothing else, reports `waiting`
and enables no completion; a waiting engine accepts no entry, neither in its turn nor from a word the
driver presents. -/
def Obligations.KeyWaitEntry : Prop :=
  ∀ (s : State) (x : Nibble),
    decode (0xF#4 ++ x ++ 0x0A#8) = .instr (.ldVxK x) ∧
    (∃ t, exec (.ldVxK x) s = .next t ∧
      t = { s with kb := s.kp, wx := x, phase := .waitKey } ∧ t.kp &&& ~~~t.kb = 0 ∧
      report (.next t) = some .waiting) ∧
    (s.phase = .waitKey → ∀ t,
      (engineTurn s = .next t ∨ ∃ w, presentWord w s = .next t) → t.kb = s.kb ∧ t.wx = s.wx)

/-- 45_keyboard.md section 4, with log 4 (a turn with no new key changes nothing) and log 8 (the
selection is counted as a free value): in the engine's turn the wait completes exactly when a key
outside the baseline is pressed; one such key goes to `V[WX]`, the program counter advances, and the
phase is `READY` again. -/
def Obligations.KeyWaitCompletion : Prop :=
  ∀ s : State, s.phase = .waitKey →
    (s.kp &&& ~~~s.kb = 0 → engineTurn s = .next s) ∧
    (s.kp &&& ~~~s.kb ≠ 0 →
      ∃ (t : State) (k : Nibble), engineTurn s = .next t ∧ s.kp.getLsbD k.toNat = true ∧
        s.kb.getLsbD k.toNat = false ∧ t.readV s.wx = BitVec.ofNat 8 k.toNat ∧
        t.pc = s.pc + 1 ∧ t.phase = .ready ∧ report (.next t) = some .ok ∧ SameBut [s.wx] s t ∧
        t = { s with v := t.v, pc := t.pc, phase := t.phase, freeCtr := t.freeCtr })

/-- 45_keyboard.md, the consequences of the completion's condition (and log 4, log 16, log 23: a turn
with no new key, an absent tick and a word presented during a wait change nothing): however often the
baseline's keys are released and pressed again, and any key released, the wait goes on and the block
is otherwise untouched. -/
def Obligations.BaselineKeysNeverCompleteTheWait : Prop :=
  ∀ (n : Nat) (s : State), s.phase = .waitKey → s.kp &&& ~~~s.kb = 0 →
    (∀ a ∈ s.schedule, a = .engine ∨ a = .snapshot ∨ a = .tick ∨ (∃ w, a = .present w) ∨
      (∃ k, a = .setUnpressed k) ∨
      ∃ k : Nibble, a = .setPressed k ∧ s.kb.getLsbD k.toNat = true) →
    ∃ t, Sys2Proof.core.run n s = .next t ∧ t.kp &&& ~~~t.kb = 0 ∧
      t = { s with kp := t.kp, schedule := t.schedule, frame := t.frame }

/-- 45_keyboard.md, progress: pressing one key outside the baseline completes the wait in the
engine's next turn, and that key is the one returned. -/
def Obligations.PressingANewKeyCompletesTheWait : Prop :=
  ∀ (s : State) (k : Nibble), s.phase = .waitKey → s.schedule = [.setPressed k] →
    s.kp &&& ~~~s.kb = 0 → s.kb.getLsbD k.toNat = false →
    ∃ t, Sys2Proof.core.run 2 s = .next t ∧ t.phase = .ready ∧ t.pc = s.pc + 1 ∧
      t.readV s.wx = BitVec.ofNat 8 k.toNat ∧ SameBut [s.wx] s t

/-! ### A step, decoding, encoding -/

/-- 10_state.md section 3 and 70_reset_and_hazards.md section 3 (and log 1, log 23): the engine moves
where the schedule says so or is used up, and the step only takes its turn off the schedule. In
`READY`, where a word decodes to an instruction, executing the word is `exec` of that instruction,
after the word is recorded as the last one accepted: in the engine's turn the word of slot `PC`, and
where the driver presents a word, that word, whatever its slot. -/
def Obligations.StepRunsTheDecodedInstruction : Prop :=
  ∀ s : State,
    (s.schedule = [] → step s = engineTurn s) ∧
    (∀ rest, s.schedule = .engine :: rest → step s = engineTurn { s with schedule := rest }) ∧
    ∀ w i, s.phase = .ready → decode w = .instr i →
      (s.fetch = some w →
        engineTurn s = exec i { s with accepted := some (s.pc, w) } ∧
        (s.schedule = [] → step s = exec i { s with accepted := some (s.pc, w) }) ∧
        ∀ rest, s.schedule = .engine :: rest →
          step s = exec i { s with schedule := rest, accepted := some (s.pc, w) }) ∧
      ∀ rest, s.schedule = .present w :: rest →
        step s = exec i { s with schedule := rest, accepted := some (s.pc, w) }

/-- 40_flow.md, `UNDEF`, with decision D3 (and log 12, log 23): a word that decodes to no instruction
is a no-op that advances the program counter, in every turn that executes it: the word of slot `PC`
with the schedule used up or naming the engine, and a word the driver presents. -/
def Obligations.UnmatchedWordsAreNoOps : Prop :=
  ∀ (s : State) (w : Word), s.phase = .ready → decode w = .undef w →
    (s.fetch = some w →
      engineTurn s = .next { s with pc := s.pc + 1, accepted := some (s.pc, w) } ∧
      (s.schedule = [] →
        step s = .next { s with pc := s.pc + 1, accepted := some (s.pc, w) }) ∧
      ∀ rest, s.schedule = .engine :: rest →
        step s = .next { s with
          pc := s.pc + 1, schedule := rest, accepted := some (s.pc, w) }) ∧
    ∀ rest, s.schedule = .present w :: rest →
      step s = .next { s with pc := s.pc + 1, schedule := rest, accepted := some (s.pc, w) }

/-- 70_reset_and_hazards.md section 3, and log 3 (the model's choice): where the driver holds no
instruction for slot `PC` the run has ended, and the engine's turn changes nothing, whether the
schedule is used up or names the engine. -/
def Obligations.EmptySlotChangesNothing : Prop :=
  ∀ s : State, s.phase = .ready → s.fetch = none →
    s.ended = true ∧ engineTurn s = .next s ∧ (s.schedule = [] → step s = .next s) ∧
    ∀ rest, s.schedule = .engine :: rest → step s = .next { s with schedule := rest }

/-- 30_encoding.md section 4: words written out from the encoding, one or more of each family,
decode to the instructions they stand for. -/
def Obligations.SampleWordsDecode : Prop :=
  decode 0x0123#16 = .instr (.sys 0x123) ∧ decode 0x00EE#16 = .instr .ret ∧
  decode 0x2300#16 = .instr (.call 0x300) ∧ decode 0x332A#16 = .instr (.seByte 3 0x2A) ∧
  decode 0x9120#16 = .instr (.sneReg 1 2) ∧ decode 0x8AB5#16 = .instr (.subReg 0xA 0xB) ∧
  decode 0x8576#16 = .instr (.shr 5) ∧ decode 0xC30F#16 = .instr (.rnd 3 0x0F) ∧
  decode 0xF21E#16 = .instr (.addI 2) ∧ decode 0xF429#16 = .instr (.ldF 4) ∧
  decode 0xDAB5#16 = .instr (.drw 0xA 0xB 5) ∧ decode 0xE2A1#16 = .instr (.sknp 2) ∧
  decode 0xFA0A#16 = .instr (.ldVxK 0xA) ∧ decode 0xF155#16 = .undef 0xF155#16

/-- 30_encoding.md: decoding the word of a well-formed instruction gives it back, with every operand
at every value. -/
def Obligations.DecodingAnEncodedInstructionGivesItBack : Prop :=
  ∀ i : Instr, i.WellFormed → decode (encode i) = .instr i

/-- 30_encoding.md: a word has one meaning: it is the word of the instruction it decodes to, which is
well formed, but for the `y` field that `SHR` and `SHL` ignore. -/
def Obligations.DecodedWordsAreTheirEncodings : Prop :=
  ∀ (w : Word) (i : Instr), decode w = .instr i →
    i.WellFormed ∧
    ((∀ x, i ≠ .shr x ∧ i ≠ .shl x) → encode i = w) ∧
    ((∃ x, i = .shr x ∨ i = .shl x) → encode i = w &&& 0xFF0F#16)

/-- 30_encoding.md section 4 with decision D2: the decoder and the opcode table's masks agree on
every word: `UNDEF` exactly when no row matches, else the instruction of a matching row, and no other
row but `SYS` matches. -/
def Obligations.DecoderAgreesWithTheOpcodeTable : Prop :=
  ∀ w : Word,
    (decode w = .undef w ↔ ∀ r ∈ opcodeTable, r.matchesWord w = false) ∧
    ∀ i, decode w = .instr i →
      (∃ r ∈ opcodeTable, r.mnemonic = i.mnemonic ∧ r.matchesWord w = true) ∧
      ∀ q ∈ opcodeTable, q.matchesWord w = true →
        q.mnemonic = i.mnemonic ∨ q.mnemonic = "SYS_addr"

/-- 30_encoding.md section 5 with decision D3: the words that decode to `UNDEF` are exactly those
listed there. -/
def Obligations.UnmatchedWordsAreExactlyThoseListed : Prop :=
  ∀ w : Word, decode w = .undef w ↔
    (fieldOp w = 0x5 ∧ fieldN w ≠ 0) ∨
    (fieldOp w = 0x8 ∧ fieldN w ∈ [0x8#4, 0x9#4, 0xA#4, 0xB#4, 0xC#4, 0xD#4, 0xF#4]) ∨
    (fieldOp w = 0x9 ∧ fieldN w ≠ 0) ∨
    (fieldOp w = 0xE ∧ fieldKk w ∉ [0x9E#8, 0xA1#8]) ∨
    (fieldOp w = 0xF ∧ fieldKk w ∉ [0x07#8, 0x0A#8, 0x15#8, 0x18#8, 0x1E#8, 0x29#8])

/-! ### Whole-machine rules -/

/-- 20_memory.md section 1: no instruction writes memory, and none reaches the instruction stream. -/
def Obligations.NoInstructionWritesMemory : Prop :=
  ∀ (i : Instr) (s t : State), exec i s = .next t →
    (∀ a, t.mem.byteAt a = s.mem.byteAt a) ∧ t.prog = s.prog

/-- 10_state.md section 2, the column "writes" of its table: an instruction writes no general register
but the listed ones. -/
def Obligations.OnlyTheListedRegistersAreWritten : Prop :=
  ∀ (i : Instr) (s t : State), exec i s = .next t →
    ∀ r, r ∉ writesOf i → t.readV r = s.readV r

/-- 10_state.md section 5, the writers of each other register: `I`, `SP` and `STK`, `DT`, `ST`, `FB`,
`KP`, and the wait state. -/
def Obligations.EachSpecialRegisterHasItsWriters : Prop :=
  ∀ (i : Instr) (s t : State), exec i s = .next t →
    (t.i ≠ s.i → (∃ addr, i = .ldI addr) ∨ (∃ x, i = .addI x) ∨ ∃ x, i = .ldF x) ∧
    (t.sp ≠ s.sp → (∃ addr, i = .call addr) ∨ i = .ret) ∧
    (t.stk ≠ s.stk → ∃ addr, i = .call addr) ∧
    (t.dt ≠ s.dt → ∃ x, i = .ldDtVx x) ∧
    (t.st ≠ s.st → ∃ x, i = .ldStVx x) ∧
    (t.fb ≠ s.fb → i = .cls ∨ ∃ x y n, i = .drw x y n) ∧
    (t.kb ≠ s.kb ∨ t.wx ≠ s.wx ∨ t.phase ≠ s.phase → ∃ x, i = .ldVxK x) ∧
    t.kp = s.kp

/-- 10_state.md section 3: how the program counter moves. The four instructions that set it and the
six skips apart, an instruction advances it by one slot; a skip by one or two; `LD Vx,K` at its
completion only. -/
def Obligations.ProgramCounterMovesBySlots : Prop :=
  ∀ (i : Instr) (s t : State), exec i s = .next t →
    (pcMove i = .oneSlot → t.pc = s.pc + 1) ∧
    (pcMove i = .skip → t.pc = s.pc + 1 ∨ t.pc = s.pc + 2) ∧
    (pcMove i = .atCompletion → t.pc = s.pc ∧ t.completeWait.pc = s.pc + 1)

/-- 60_exceptions.md section 1, which instruction can raise what: the faults of each instruction and
exactly when it raises one. -/
def Obligations.FaultsExactlyWhenTheSpecSays : Prop :=
  ∀ (i : Instr) (s : State), (∃ f, exec i s = .fault f) ↔
    (i = .ret ∧ s.sp = 0) ∨ (∃ addr, i = .call addr ∧ s.sp = 15) ∨
    (∃ x y n, i = .drw x y n ∧ ∃ k < n.toNat, BreaksBound s y k) ∨
    (∃ x, (i = .skp x ∨ i = .sknp x) ∧ 15 < (s.readV x).toNat)

/-- 60_exceptions.md section 1 (an unrecognised instruction is no fault either), with decision D3 (and
log 12, the decided `UNDEF_POLICY`): no instruction and no step is refused. -/
def Obligations.NothingIsRefused : Prop :=
  (∀ (i : Instr) (s : State) (r : Refusal), exec i s ≠ .refused r) ∧
  ∀ (s : State) (r : Refusal), step s ≠ .refused r

/-- 10_state.md section 5: no instruction reads `ST`; two runs that differ in it only go on to differ
in it only. -/
def Obligations.SoundTimerIsReadByNoInstruction : Prop :=
  ∀ (i : Instr) (s : State) (b : Byte),
    (∀ t, exec i s = .next t → (∀ x, i ≠ .ldStVx x) →
      exec i { s with st := b } = .next { t with st := b }) ∧
    (∀ x, i = .ldStVx x → exec i { s with st := b } = exec i s) ∧
    (∀ f, exec i s = .fault f → exec i { s with st := b } = .fault f)

/-- 10_state.md section 6, the hidden state: no instruction reads the baseline, the wait's register
index, what the display sink holds, or the model's record of the last accepted word (log 23). -/
def Obligations.HiddenStateIsReadByNoInstruction : Prop :=
  ∀ (i : Instr) (s : State) (k : Word) (wx : Nibble) (frame : Option Framebuffer)
    (last : Option (Word × Word)),
    (∀ t, exec i s = .next t → (∀ x, i ≠ .ldVxK x) →
      exec i { s with kb := k, wx := wx, frame := frame, accepted := last } =
        .next { t with kb := k, wx := wx, frame := frame, accepted := last }) ∧
    (∀ t x, exec i s = .next t → i = .ldVxK x →
      exec i { s with kb := k, wx := wx, frame := frame, accepted := last } =
        .next { t with frame := frame, accepted := last }) ∧
    (∀ f, exec i s = .fault f →
      exec i { s with kb := k, wx := wx, frame := frame, accepted := last } = .fault f)

/-- 60_exceptions.md section 5 with decision D21 (and log 16): a timer changes at a step only where
that step is a reset, which clears it, or executes its write instruction, from slot `PC` in the
engine's own turn or as a word the driver presents; then the timer holds `V[x]`. -/
def Obligations.TimersHoldTheirValue : Prop :=
  ∀ s t : State, step s = .next t →
    (t.dt ≠ s.dt →
      ((∃ image rest, s.schedule = .reset image :: rest) ∧ t.dt = 0) ∨
      ∃ w x, Executes s w ∧ decode w = .instr (.ldDtVx x) ∧ t.dt = s.readV x) ∧
    (t.st ≠ s.st →
      ((∃ image rest, s.schedule = .reset image :: rest) ∧ t.st = 0) ∨
      ∃ w x, Executes s w ∧ decode w = .instr (.ldStVx x) ∧ t.st = s.readV x)

/-- 20_memory.md sections 1 and 5: memory is constant between resets, and no instruction reaches the
driver's instruction slots. That no other step changes them, a reset among them, is the model's
choice (log 2: the driver's map is constant; log 13: a reset keeps what the outside agents hold). -/
def Obligations.StepsKeepMemoryAndProgram : Prop :=
  ∀ s t : State, step s = .next t →
    t.prog = s.prog ∧
    ((∀ image rest, s.schedule ≠ .reset image :: rest) →
      t.mem = s.mem ∧ ∀ a, t.mem.byteAt a = s.mem.byteAt a)

/-- 10_state.md section 7: the reset state meets the invariant. -/
def Obligations.ResetMeetsTheInvariant : Prop := State.reset.Inv

/-- 10_state.md section 7, the invariants of every reachable state: every step keeps memory's
canonical form and the font in it, `STK[0] = 0`, and that while the engine waits the last accepted
instruction was the `LD Vx,K` of slot `PC` with `x = WX` (the record of it: log 23). -/
def Obligations.EveryStepKeepsTheInvariant : Prop :=
  ∀ s t : State, s.Inv → step s = .next t → t.Inv

/-- 70_reset_and_hazards.md section 3 with decision D24 (and log 3, log 14, log 16): at its normal end
the engine is ready, the driver holds no instruction for slot `PC`, and the machine stands still: with
no other agent's action to come the state never changes again, and as long as the driver neither
presents a word nor asserts a reset the block keeps everything but its pressed keys. So a run ends at
most once, and one that ends normally does not end by a fault. -/
def Obligations.ARunEndsAtMostOnce : Prop :=
  ∀ (s t : State) (k : Nat), EndsNormally k s t →
    t.phase = .ready ∧ t.prog.wordAt t.pc = none ∧
    (s.schedule = [] → ∀ j, Sys2Proof.core.run (k + j) s = .next t) ∧
    ((∀ a ∈ t.schedule, (∀ w, a ≠ .present w) ∧ ∀ image, a ≠ .reset image) →
      ∀ j, ∃ u : State, Sys2Proof.core.run (k + j) s = .next u ∧ u.ended = true ∧
        u = { t with kp := u.kp, schedule := u.schedule, frame := u.frame }) ∧
    (∀ m u, EndsNormally m s u → m = k ∧ u = t) ∧
    ∀ m u f, ¬EndsByFault m s u f

/-- 60_exceptions.md section 5 with decision D21 (and log 16): with `TIMER_TICK` absent, as decided, a
tick takes itself off the schedule and changes nothing else. -/
def Obligations.AbsentTickChangesNothing : Prop :=
  config.timerTick = false ∧
  ∀ (s : State) (rest : List Action), s.schedule = .tick :: rest →
    step s = .next { s with schedule := rest }

/-- 60_exceptions.md section 1 and 70_reset_and_hazards.md section 3 with decisions D11, D13 and D24
(and log 14): a step faults exactly where it executes the word of one of the five instructions that
can fault, in the case and with the fault the spec gives it. So an abnormal end of a run is one of
these, and the run answers that fault however far it is taken. -/
def Obligations.AStepFaultsExactlyForItsInstruction : Prop :=
  (∀ (s : State) (f : Fault), step s = .fault f ↔
    ∃ w i, Executes s w ∧ decode w = .instr i ∧ RaisesFault i s f) ∧
  ∀ (s t : State) (k : Nat) (f : Fault), EndsByFault k s t f →
    (∃ w i, Executes t w ∧ decode w = .instr i ∧ RaisesFault i t f) ∧
    (∀ j, Sys2Proof.core.run (k + 1 + j) s = .fault f) ∧
    ∀ m u g, EndsByFault m s u g → m = k ∧ u = t ∧ g = f
end

