-- ==== Sys2Proof/Laws/Decode.lean ====
section
/-! SUPPORT. The laws of an instruction word's fields: what each field of a word of each format is. -/

namespace Sys2Proof

/-- A concatenation as a number. -/
theorem append_toNat {m k : Nat} (a : BitVec m) (b : BitVec k) :
    (a ++ b).toNat = a.toNat * 2 ^ k + b.toNat := by
  rw [BitVec.toNat_append, ← Nat.shiftLeft_add_eq_or_of_lt b.isLt, Nat.shiftLeft_eq]

section
variable (op x y n : Nibble) (kk : Byte) (nnn : Addr)

/-- The words of the formats, as concatenations. -/
theorem append_eq_wordA : op ++ nnn = wordA op nnn := rfl
theorem append_eq_wordXK : op ++ x ++ kk = wordXK op x kk := rfl
theorem append_eq_wordXY : op ++ x ++ y ++ n = wordXY op x y n := rfl

/-- A word of format A as a number. -/
theorem wordA_toNat : (wordA op nnn).toNat = op.toNat * 4096 + nnn.toNat := by
  simp only [wordA, append_toNat, Nat.reducePow]

/-- A word of format XK as a number. -/
theorem wordXK_toNat : (wordXK op x kk).toNat = op.toNat * 4096 + x.toNat * 256 + kk.toNat := by
  simp only [wordXK, append_toNat]
  omega

/-- A word of format XY as a number. -/
theorem wordXY_toNat :
    (wordXY op x y n).toNat = op.toNat * 4096 + x.toNat * 256 + y.toNat * 16 + n.toNat := by
  simp only [wordXY, append_toNat]
  omega

end

section
variable (w : Word)

theorem fieldOp_toNat : (fieldOp w).toNat = w.toNat / 4096 := by
  have := w.isLt
  simp only [fieldOp, BitVec.extractLsb'_toNat, Nat.shiftRight_eq_div_pow]
  omega

theorem fieldX_toNat : (fieldX w).toNat = w.toNat / 256 % 16 := by
  simp [fieldX, Nat.shiftRight_eq_div_pow]

theorem fieldY_toNat : (fieldY w).toNat = w.toNat / 16 % 16 := by
  simp [fieldY, Nat.shiftRight_eq_div_pow]

theorem fieldN_toNat : (fieldN w).toNat = w.toNat % 16 := by simp [fieldN]

theorem fieldKk_toNat : (fieldKk w).toNat = w.toNat % 256 := by simp [fieldKk]

theorem fieldNnn_toNat : (fieldNnn w).toNat = w.toNat % 4096 := by simp [fieldNnn]

/-- A word is the concatenation of its four fields. -/
theorem wordXY_fields : wordXY (fieldOp w) (fieldX w) (fieldY w) (fieldN w) = w := by
  apply BitVec.eq_of_toNat_eq
  have := w.isLt
  simp only [wordXY_toNat, fieldOp_toNat, fieldX_toNat, fieldY_toNat, fieldN_toNat]
  omega

theorem wordXK_fields : wordXK (fieldOp w) (fieldX w) (fieldKk w) = w := by
  apply BitVec.eq_of_toNat_eq
  have := w.isLt
  simp only [wordXK_toNat, fieldOp_toNat, fieldX_toNat, fieldKk_toNat]
  omega

theorem wordA_fields : wordA (fieldOp w) (fieldNnn w) = w := by
  apply BitVec.eq_of_toNat_eq
  have := w.isLt
  simp only [wordA_toNat, fieldOp_toNat, fieldNnn_toNat]
  omega

end

section
variable (op x y n : Nibble) (kk : Byte) (nnn : Addr)

@[simp] theorem fieldOp_wordA : fieldOp (wordA op nnn) = op := by
  apply BitVec.eq_of_toNat_eq
  have := nnn.isLt
  simp only [fieldOp_toNat, wordA_toNat]
  omega

@[simp] theorem fieldNnn_wordA : fieldNnn (wordA op nnn) = nnn := by
  apply BitVec.eq_of_toNat_eq
  have := nnn.isLt
  simp only [fieldNnn_toNat, wordA_toNat]
  omega

@[simp] theorem fieldOp_wordXK : fieldOp (wordXK op x kk) = op := by
  apply BitVec.eq_of_toNat_eq
  have := x.isLt; have := kk.isLt
  simp only [fieldOp_toNat, wordXK_toNat]
  omega

@[simp] theorem fieldX_wordXK : fieldX (wordXK op x kk) = x := by
  apply BitVec.eq_of_toNat_eq
  have := x.isLt; have := kk.isLt
  simp only [fieldX_toNat, wordXK_toNat]
  omega

@[simp] theorem fieldKk_wordXK : fieldKk (wordXK op x kk) = kk := by
  apply BitVec.eq_of_toNat_eq
  have := x.isLt; have := kk.isLt
  simp only [fieldKk_toNat, wordXK_toNat]
  omega

@[simp] theorem fieldOp_wordXY : fieldOp (wordXY op x y n) = op := by
  apply BitVec.eq_of_toNat_eq
  have := x.isLt; have := y.isLt; have := n.isLt
  simp only [fieldOp_toNat, wordXY_toNat]
  omega

@[simp] theorem fieldX_wordXY : fieldX (wordXY op x y n) = x := by
  apply BitVec.eq_of_toNat_eq
  have := x.isLt; have := y.isLt; have := n.isLt
  simp only [fieldX_toNat, wordXY_toNat]
  omega

@[simp] theorem fieldY_wordXY : fieldY (wordXY op x y n) = y := by
  apply BitVec.eq_of_toNat_eq
  have := x.isLt; have := y.isLt; have := n.isLt
  simp only [fieldY_toNat, wordXY_toNat]
  omega

@[simp] theorem fieldN_wordXY : fieldN (wordXY op x y n) = n := by
  apply BitVec.eq_of_toNat_eq
  have := x.isLt; have := y.isLt; have := n.isLt
  simp only [fieldN_toNat, wordXY_toNat]
  omega

end

/-! ### The masks of the opcode table, field by field -/

/-- Masking goes field by field. -/
theorem wordXY_and (op x y n op' x' y' n' : Nibble) :
    wordXY op x y n &&& wordXY op' x' y' n' =
      wordXY (op &&& op') (x &&& x') (y &&& y') (n &&& n') := by
  have h1 := BitVec.and_append (x₁ := op) (x₂ := op') (y₁ := x) (y₂ := x')
  have h2 := BitVec.and_append (x₁ := op ++ x) (x₂ := op' ++ x') (y₁ := y) (y₂ := y')
  have h3 := BitVec.and_append (x₁ := op ++ x ++ y) (x₂ := op' ++ x' ++ y') (y₁ := n) (y₂ := n')
  rw [h2, h1] at h3
  exact h3

/-- Two words are equal when their fields are. -/
theorem wordXY_inj {op x y n op' x' y' n' : Nibble} :
    wordXY op x y n = wordXY op' x' y' n' ↔ op = op' ∧ x = x' ∧ y = y' ∧ n = n' := by
  constructor
  · intro h
    have h1 := congrArg fieldOp h
    have h2 := congrArg fieldX h
    have h3 := congrArg fieldY h
    have h4 := congrArg fieldN h
    simp only [fieldOp_wordXY, fieldX_wordXY, fieldY_wordXY, fieldN_wordXY] at h1 h2 h3 h4
    exact ⟨h1, h2, h3, h4⟩
  · rintro ⟨rfl, rfl, rfl, rfl⟩
    rfl

/-- `kk` is `y || n` (R71). -/
theorem fieldKk_eq (w : Word) : fieldKk w = fieldY w ++ fieldN w := by
  apply BitVec.eq_of_toNat_eq
  simp only [append_toNat, fieldKk_toNat, fieldY_toNat, fieldN_toNat]
  omega

/-- A word matches a row when its fields match the row's, field by field. -/
theorem matchesWord_iff (m : String) (a b c d p q r s : Nibble) (w : Word) :
    (OpcodeRow.mk m (wordXY a b c d) (wordXY p q r s)).matchesWord w = true ↔
      fieldOp w &&& a = p ∧ fieldX w &&& b = q ∧ fieldY w &&& c = r ∧ fieldN w &&& d = s := by
  simp only [OpcodeRow.matchesWord, beq_iff_eq]
  rw [← wordXY_fields w, wordXY_and, wordXY_inj, wordXY_fields w]

/-- `kk` splits into `y` and `n` (R71). -/
theorem fieldKk_eq_iff (w : Word) (y n : Nibble) :
    fieldKk w = y ++ n ↔ fieldY w = y ∧ fieldN w = n := by
  rw [fieldKk_eq]
  constructor
  · intro e
    have e := congrArg BitVec.toNat e
    simp only [append_toNat] at e
    have := n.isLt
    have := (fieldN w).isLt
    exact ⟨BitVec.eq_of_toNat_eq (by omega), BitVec.eq_of_toNat_eq (by omega)⟩
  · rintro ⟨rfl, rfl⟩
    rfl

section
variable (m : String) (w p : Word) {op y n : Nibble}

/-- A row that fixes only the major opcode. -/
theorem matchesWord_op (hp : p = wordXY op 0 0 0) :
    (OpcodeRow.mk m 0xF000#16 p).matchesWord w = true ↔ fieldOp w = op := by
  rw [hp, show (0xF000#16 : Word) = wordXY 0xF 0 0 0 from rfl]
  have h := matchesWord_iff m 0xF 0 0 0 op 0 0 0 w
  rw [show fieldOp w &&& (0xF : Nibble) = fieldOp w from BitVec.and_allOnes] at h
  simpa using h

/-- A row that fixes the major opcode and the low nibble. -/
theorem matchesWord_op_n (hp : p = wordXY op 0 0 n) :
    (OpcodeRow.mk m 0xF00F#16 p).matchesWord w = true ↔ fieldOp w = op ∧ fieldN w = n := by
  rw [hp, show (0xF00F#16 : Word) = wordXY 0xF 0 0 0xF from rfl]
  have h := matchesWord_iff m 0xF 0 0 0xF op 0 0 n w
  rw [show fieldOp w &&& (0xF : Nibble) = fieldOp w from BitVec.and_allOnes,
    show fieldN w &&& (0xF : Nibble) = fieldN w from BitVec.and_allOnes] at h
  simpa using h

/-- A row that fixes the major opcode and the low byte. -/
theorem matchesWord_op_kk (hp : p = wordXY op 0 y n) :
    (OpcodeRow.mk m 0xF0FF#16 p).matchesWord w = true ↔
      fieldOp w = op ∧ fieldKk w = y ++ n := by
  rw [hp, show (0xF0FF#16 : Word) = wordXY 0xF 0 0xF 0xF from rfl]
  have h := matchesWord_iff m 0xF 0 0xF 0xF op 0 y n w
  rw [show fieldOp w &&& (0xF : Nibble) = fieldOp w from BitVec.and_allOnes,
    show fieldY w &&& (0xF : Nibble) = fieldY w from BitVec.and_allOnes,
    show fieldN w &&& (0xF : Nibble) = fieldN w from BitVec.and_allOnes] at h
  rw [fieldKk_eq_iff]
  simpa using h

/-- A row that fixes the whole word. -/
theorem matchesWord_word : (OpcodeRow.mk m 0xFFFF#16 p).matchesWord w = true ↔ w = p := by
  simp only [OpcodeRow.matchesWord, beq_iff_eq]
  rw [show w &&& 0xFFFF#16 = w from BitVec.and_allOnes]

end

end Sys2Proof
end

