-- ==== Sys2Proof/Laws/Memory.lean ====
section
/-! SUPPORT. The laws of memory: read after write, and that every operation keeps the canonical form. -/

namespace Sys2Proof.Machine

@[simp] theorem Memory.byteAt_nil (a : Nat) : Memory.byteAt [] a = resetByte a := rfl

/-- Nothing below `lo` is listed. -/
theorem Memory.byteAt_below {m : Memory} : ∀ {lo a : Nat}, Memory.wfFrom lo m = true → a < lo →
    m.byteAt a = resetByte a := by
  induction m with
  | nil => intros; rfl
  | cons c rest ih =>
    intro lo a h ha
    simp only [Memory.wfFrom, Bool.and_eq_true, decide_eq_true_eq] at h
    have : c.1 ≠ a := by omega
    simp only [Memory.byteAt, if_neg this]
    exact ih h.2 (by omega)

/-- A canonical list may start later. -/
theorem Memory.wfFrom_le {m : Memory} {lo lo' : Nat} (h : Memory.wfFrom lo m = true)
    (hl : lo' ≤ lo) : Memory.wfFrom lo' m = true := by
  cases m with
  | nil => rfl
  | cons c rest =>
    simp only [Memory.wfFrom, Bool.and_eq_true, decide_eq_true_eq] at h ⊢
    exact ⟨⟨⟨by omega, h.1.1.2⟩, h.1.2⟩, h.2⟩

theorem Memory.byteAt_insertCell (m : Memory) (a a' : Nat) (b : Byte) :
    Memory.byteAt (Memory.insertCell a b m) a' = if a = a' then b else m.byteAt a' := by
  induction m with
  | nil => simp [Memory.insertCell, Memory.byteAt]
  | cons c rest ih =>
    simp only [Memory.insertCell]
    split
    · simp [Memory.byteAt]
    · split
      · rename_i h; subst h
        simp only [Memory.byteAt]
        split <;> rfl
      · simp only [Memory.byteAt, ih]
        split <;> split <;> simp_all

theorem Memory.byteAt_eraseCell {m : Memory} : ∀ {lo : Nat} (a a' : Nat),
    Memory.wfFrom lo m = true →
    Memory.byteAt (Memory.eraseCell a m) a' = if a = a' then resetByte a else m.byteAt a' := by
  induction m with
  | nil =>
    intro lo a a' _
    simp only [Memory.eraseCell, Memory.byteAt_nil]
    split
    · rename_i h; rw [h]
    · rfl
  | cons c rest ih =>
    intro lo a a' h
    simp only [Memory.wfFrom, Bool.and_eq_true, decide_eq_true_eq] at h
    simp only [Memory.eraseCell]
    split
    · rename_i hc; subst hc
      split
      · rename_i he; subst he
        exact Memory.byteAt_below h.2 (by omega)
      · rename_i hne; simp only [Memory.byteAt, if_neg hne]
    · rename_i hc
      simp only [Memory.byteAt, ih a a' h.2]
      split <;> split <;> simp_all

/-- Read after write: the byte written there, the old bytes elsewhere. -/
theorem Memory.byteAt_write {m : Memory} (h : m.wf = true) (a a' : Nat) (b : Byte) :
    (m.write a b).byteAt a' = if a = a' then b else m.byteAt a' := by
  unfold Memory.write
  split
  · rename_i hb; rw [hb]; exact Memory.byteAt_eraseCell a a' h
  · exact Memory.byteAt_insertCell m a a' b

theorem Memory.wfFrom_insertCell {m : Memory} : ∀ {lo a : Nat} {b : Byte},
    Memory.wfFrom lo m = true → lo ≤ a → a < 4096 → b ≠ resetByte a →
    Memory.wfFrom lo (Memory.insertCell a b m) = true := by
  induction m with
  | nil => intro lo a b _ hl ha hb; simp [Memory.insertCell, Memory.wfFrom, hl, ha, hb]
  | cons c rest ih =>
    intro lo a b h hl ha hb
    simp only [Memory.wfFrom, Bool.and_eq_true, decide_eq_true_eq] at h
    simp only [Memory.insertCell]
    split
    · rename_i hac
      simp only [Memory.wfFrom, Bool.and_eq_true, decide_eq_true_eq, bne_iff_ne]
      refine ⟨⟨⟨hl, ha⟩, hb⟩, ⟨⟨by omega, h.1.1.2⟩, ?_⟩, h.2⟩
      simpa using h.1.2
    · split
      · rename_i he; subst he
        simp only [Memory.wfFrom, Bool.and_eq_true, decide_eq_true_eq, bne_iff_ne]
        exact ⟨⟨⟨hl, ha⟩, hb⟩, h.2⟩
      · simp only [Memory.wfFrom, Bool.and_eq_true, decide_eq_true_eq]
        exact ⟨h.1, ih h.2 (by omega) ha hb⟩

theorem Memory.wfFrom_eraseCell {m : Memory} : ∀ {lo : Nat} (a : Nat),
    Memory.wfFrom lo m = true → Memory.wfFrom lo (Memory.eraseCell a m) = true := by
  induction m with
  | nil => intros; rfl
  | cons c rest ih =>
    intro lo a h
    simp only [Memory.wfFrom, Bool.and_eq_true, decide_eq_true_eq] at h
    simp only [Memory.eraseCell]
    split
    · exact Memory.wfFrom_le h.2 (by omega)
    · simp only [Memory.wfFrom, Bool.and_eq_true, decide_eq_true_eq]
      exact ⟨h.1, ih a h.2⟩

/-- A write keeps the canonical form. -/
theorem Memory.wf_write {m : Memory} (h : m.wf = true) {a : Nat} (ha : a < 4096) (b : Byte) :
    (m.write a b).wf = true := by
  unfold Memory.write
  split
  · exact Memory.wfFrom_eraseCell a h
  · rename_i hb; exact Memory.wfFrom_insertCell h (Nat.zero_le a) ha hb

/-- Loading an image gives the canonical form. -/
theorem Memory.wf_ofImage (image : List Host.Cell) : (Memory.ofImage image).wf = true := by
  induction image with
  | nil => rfl
  | cons c rest ih =>
    simp only [Memory.ofImage]
    split
    · rename_i h; exact Memory.wf_write ih h.1 _
    · exact ih

/-- Off the font an image's byte is what memory holds after the reset. -/
theorem Memory.byteAt_ofImage (image : List Host.Cell) {a : Nat} (ha : a < 4096)
    (hf : fontByte a = none) : (Memory.ofImage image).byteAt a = imageByte image a := by
  induction image with
  | nil => simp [Memory.ofImage, imageByte, resetByte, hf]
  | cons c rest ih =>
    simp only [Memory.ofImage, imageByte]
    split
    · rw [Memory.byteAt_write (Memory.wf_ofImage rest), ih]
    · rename_i h
      rw [ih, if_neg]
      rintro rfl
      exact h ⟨ha, hf⟩

/-- On the font an image changes nothing. -/
theorem Memory.byteAt_ofImage_font (image : List Host.Cell) {a : Nat}
    (hf : fontByte a ≠ none) : (Memory.ofImage image).byteAt a = resetByte a := by
  induction image with
  | nil => rfl
  | cons c rest ih =>
    simp only [Memory.ofImage]
    split
    · rename_i h
      rw [Memory.byteAt_write (Memory.wf_ofImage rest), if_neg, ih]
      rintro rfl
      exact hf h.2
    · exact ih

/-- Which addresses are font addresses. -/
theorem fontByte_eq_none_iff (a : Nat) :
    fontByte a = none ↔ a < config.fontBase ∨ config.fontBase + 80 ≤ a := by
  unfold fontByte
  split
  · simp; omega
  · simp; omega

/-- `FONT_BASE` keeps the font inside the reserved region `0x000..0x1FF` (R56). -/
theorem config_fontBase_le : config.fontBase ≤ 0x1B0 := by decide

/-- The font byte of digit `d`, row `j` (R56). -/
theorem fontByte_glyph (d : Fin 16) (j : Fin 5) :
    fontByte (config.fontBase + 5 * d.val + j.val) = some (config.fontGlyphs[d][j]) := by
  have h1 : (config.fontBase + 5 * d.val + j.val - config.fontBase) / 5 = d.val := by omega
  have h2 : (config.fontBase + 5 * d.val + j.val - config.fontBase) % 5 = j.val := by omega
  have h : config.fontBase ≤ config.fontBase + 5 * d.val + j.val ∧
      config.fontBase + 5 * d.val + j.val < config.fontBase + 80 := by omega
  simp only [fontByte, dif_pos h, h1, h2]
  rfl

/-- Memory with nothing listed holds the font. -/
theorem Memory.byteAt_reset_font (d : Fin 16) (j : Fin 5) :
    Memory.byteAt [] (config.fontBase + 5 * d.val + j.val) = config.fontGlyphs[d][j] := by
  rw [Memory.byteAt_nil, resetByte, fontByte_glyph]
  rfl

/-- A read inside memory gives the byte. -/
theorem Memory.read_of_lt (m : Memory) {a : Nat} (h : a < 4096) : m.read a = .ok (m.byteAt a) := by
  simp [Memory.read, h]

/-- A read outside memory faults with its address, unwrapped (R55). -/
theorem Memory.read_of_ge (m : Memory) {a : Nat} (h : 4096 ≤ a) :
    m.read a = .error (.addressFault .mem a) := by
  simp [Memory.read, Nat.not_lt.mpr h]

end Sys2Proof.Machine
end

