-- ==== Sys2Proof/Laws/Display.lean ====
section
/-! SUPPORT. The laws of the sprite renderer: when its bounds hold, and what it draws. -/

namespace Sys2Proof.Machine

theorem displayRow_of_lt {r : Nat} (h : r < 32) : displayRow r = .ok ⟨r, h⟩ := by
  simp [displayRow, h]

theorem displayRow_of_ge {r : Nat} (h : 32 ≤ r) :
    displayRow r = .error (.addressFault .displayRow r) := by
  simp [displayRow, Nat.not_lt.mpr h]

/-- Inside all bounds the sprite is read whole. -/
theorem spriteStrip_ok (m : Memory) : ∀ (n a r : Nat), (∀ k < n, a + k < 4096 ∧ r + k < 32) →
    ∃ strip, spriteStrip m a r n = .ok strip := by
  intro n
  induction n with
  | zero => intros; exact ⟨[], rfl⟩
  | succ n ih =>
    intro a r h
    obtain ⟨ha, hr⟩ := h 0 (Nat.succ_pos n)
    rw [Nat.add_zero] at ha hr
    obtain ⟨rest, hrest⟩ := ih (a + 1) (r + 1) fun k hk => by
      have := h (k + 1) (by omega)
      omega
    refine ⟨(⟨r, hr⟩, m.byteAt a) :: rest, ?_⟩
    simp only [spriteStrip, Memory.read_of_lt m ha, displayRow_of_lt hr, hrest]

/-- The lowest row offset that breaks a bound decides the fault, memory before display row. -/
theorem spriteStrip_error (m : Memory) : ∀ (k n a r : Nat), k < n →
    (∀ j < k, a + j < 4096 ∧ r + j < 32) →
    (4096 ≤ a + k → spriteStrip m a r n = .error (.addressFault .mem (a + k))) ∧
    (a + k < 4096 → 32 ≤ r + k →
      spriteStrip m a r n = .error (.addressFault .displayRow (r + k))) := by
  intro k
  induction k with
  | zero =>
    intro n a r hn _
    obtain ⟨n, rfl⟩ : ∃ n', n = n' + 1 := ⟨n - 1, by omega⟩
    simp only [Nat.add_zero]
    constructor
    · intro ha
      simp only [spriteStrip, Memory.read_of_ge m ha]
    · intro ha hr
      simp only [spriteStrip, Memory.read_of_lt m ha, displayRow_of_ge hr]
  | succ k ih =>
    intro n a r hn h
    obtain ⟨n, rfl⟩ : ∃ n', n = n' + 1 := ⟨n - 1, by omega⟩
    obtain ⟨ha, hr⟩ := h 0 (Nat.succ_pos k)
    rw [Nat.add_zero] at ha hr
    obtain ⟨h1, h2⟩ := ih n (a + 1) (r + 1) (by omega) fun j hj => by
      have := h (j + 1) (by omega)
      omega
    have ea : a + 1 + k = a + (k + 1) := by omega
    have er : r + 1 + k = r + (k + 1) := by omega
    rw [ea] at h1 h2
    rw [er] at h2
    constructor
    · intro hk
      simp only [spriteStrip, Memory.read_of_lt m ha, displayRow_of_lt hr, h1 hk]
    · intro hk hk'
      simp only [spriteStrip, Memory.read_of_lt m ha, displayRow_of_lt hr, h2 hk hk']

/-- A sprite that was read whole: its first byte and row, and the rest of it. -/
theorem spriteStrip_succ_ok {m : Memory} {n a r : Nat} {strip : List (DisplayRow × Byte)}
    (h : spriteStrip m a r (n + 1) = .ok strip) :
    ∃ (row : DisplayRow) (rest : List (DisplayRow × Byte)), row.val = r ∧ a < 4096 ∧
      spriteStrip m (a + 1) (r + 1) n = .ok rest ∧ strip = (row, m.byteAt a) :: rest := by
  rcases Nat.lt_or_ge a 4096 with ha | ha
  · rcases Nat.lt_or_ge r 32 with hr | hr
    · simp only [spriteStrip, Memory.read_of_lt m ha, displayRow_of_lt hr] at h
      split at h
      · cases h
      · rename_i rest hrest
        cases h
        exact ⟨⟨r, hr⟩, rest, rfl, ha, hrest, rfl⟩
    · simp only [spriteStrip, Memory.read_of_lt m ha, displayRow_of_ge hr] at h
      cases h
  · simp only [spriteStrip, Memory.read_of_ge m ha] at h
    cases h

/-- A sprite that was read whole lay inside all bounds, and has as many rows as its height. -/
theorem spriteStrip_ok_bounds {m : Memory} : ∀ {n a r : Nat} {strip : List (DisplayRow × Byte)},
    spriteStrip m a r n = .ok strip →
    (∀ k < n, a + k < 4096 ∧ r + k < 32) ∧ strip.length = n := by
  intro n
  induction n with
  | zero => intro a r strip h; cases h; exact ⟨by omega, rfl⟩
  | succ n ih =>
    intro a r strip h
    obtain ⟨row, rest, hrow, ha, hrest, rfl⟩ := spriteStrip_succ_ok h
    have hr : r < 32 := hrow ▸ row.isLt
    obtain ⟨hb, hl⟩ := ih hrest
    refine ⟨fun k hk => ?_, by simp [hl]⟩
    cases k with
    | zero => exact ⟨ha, hr⟩
    | succ k =>
      have := hb k (by omega)
      omega

/-- The spec's two forms of the collision test agree (R165). -/
theorem mask_and_not_xor (old mask : RowBits) : mask &&& ~~~(old ^^^ mask) = mask &&& old := by
  ext i hi
  simp only [BitVec.getElem_and, BitVec.getElem_not, BitVec.getElem_xor]
  cases mask[i] <;> cases old[i] <;> rfl

theorem drawStrip_cons (x0 : Nat) (r : DisplayRow) (b : Byte) (rest : List (DisplayRow × Byte))
    (fb : Framebuffer) :
    drawStrip x0 ((r, b) :: rest) fb =
      ((drawStrip x0 rest (fb.set r (fb[r] ^^^ rowMask b x0))).1,
        rowMask b x0 &&& fb[r] != 0 ||
          (drawStrip x0 rest (fb.set r (fb[r] ^^^ rowMask b x0))).2) := by
  simp only [drawStrip, mask_and_not_xor]

/-- Setting one row: that row, and the others. -/
theorem getElem_set_row (fb : Framebuffer) (r q : DisplayRow) (v : RowBits) :
    (fb.set r v)[q] = if r = q then v else fb[q] := by
  simp only [Fin.getElem_fin, Vector.getElem_set, Fin.ext_iff]

/-- What a draw leaves: each row of the sprite combined with its mask, the other rows as before; and
a collision exactly where some mask meets a pixel that was on (R162, R163, R165). -/
theorem drawStrip_spec (m : Memory) (x0 : Nat) : ∀ (n a r : Nat) (strip : List (DisplayRow × Byte))
    (fb : Framebuffer), spriteStrip m a r n = .ok strip →
    (∀ q : DisplayRow, r ≤ q.val → q.val < r + n →
      (drawStrip x0 strip fb).1[q] = fb[q] ^^^ rowMask (m.byteAt (a + (q.val - r))) x0) ∧
    (∀ q : DisplayRow, ¬(r ≤ q.val ∧ q.val < r + n) → (drawStrip x0 strip fb).1[q] = fb[q]) ∧
    ((drawStrip x0 strip fb).2 = true ↔ ∃ q : DisplayRow, (r ≤ q.val ∧ q.val < r + n) ∧
      rowMask (m.byteAt (a + (q.val - r))) x0 &&& fb[q] ≠ 0) := by
  intro n
  induction n with
  | zero =>
    intro a r strip fb h
    cases h
    refine ⟨fun q h1 h2 => by omega, fun q _ => rfl, ?_⟩
    simp only [drawStrip, Bool.false_eq_true, false_iff]
    rintro ⟨q, h, -⟩
    omega
  | succ n ih =>
    intro a r strip fb h
    obtain ⟨row, rest, rfl, ha, hrest, rfl⟩ := spriteStrip_succ_ok h
    obtain ⟨h1, h2, h3⟩ := ih (a + 1) (row.val + 1) rest
      (fb.set row (fb[row] ^^^ rowMask (m.byteAt a) x0)) hrest
    rw [drawStrip_cons]
    dsimp only
    have here : (fb.set row (fb[row] ^^^ rowMask (m.byteAt a) x0))[row] =
        fb[row] ^^^ rowMask (m.byteAt a) x0 := by rw [getElem_set_row, if_pos rfl]
    have other : ∀ q : DisplayRow, row ≠ q →
        (fb.set row (fb[row] ^^^ rowMask (m.byteAt a) x0))[q] = fb[q] := fun q hq => by
      rw [getElem_set_row, if_neg hq]
    have addr : ∀ q : DisplayRow, row.val + 1 ≤ q.val →
        a + 1 + (q.val - (row.val + 1)) = a + (q.val - row.val) := fun q hq => by omega
    have ne : ∀ q : DisplayRow, row.val + 1 ≤ q.val → row ≠ q := fun q hq e => by
      rw [e] at hq; omega
    have first : a + (row.val - row.val) = a := by omega
    refine ⟨fun q hq hq' => ?_, fun q hq => ?_, ?_⟩
    · rcases Nat.lt_or_ge q.val (row.val + 1) with hlt | hge
      · obtain rfl : row = q := Fin.ext (by omega)
        rw [h2 row (by omega), here, first]
      · rw [h1 q hge (by omega), other q (ne q hge), addr q hge]
    · rw [h2 q (by omega)]
      exact other q fun e => hq (by rw [e]; omega)
    · simp only [Bool.or_eq_true, bne_iff_ne, h3]
      constructor
      · rintro (hc | ⟨q, hq, hc⟩)
        · exact ⟨row, by omega, by rwa [first]⟩
        · rw [other q (ne q hq.1), addr q hq.1] at hc
          exact ⟨q, by omega, hc⟩
      · rintro ⟨q, hq, hc⟩
        rcases Nat.lt_or_ge q.val (row.val + 1) with hlt | hge
        · obtain rfl : row = q := Fin.ext (by omega)
          rw [first] at hc
          exact .inl hc
        · refine .inr ⟨q, by omega, ?_⟩
          rw [other q (ne q hge), addr q hge]
          exact hc

/-- The wide case leaves the other rows alone (R166). -/
theorem drawWide_other (m : Memory) : ∀ (n a r c : Nat) (strip : List (DisplayRow × Byte))
    (fb : Framebuffer) (q : DisplayRow), spriteStrip m a r n = .ok strip →
    ¬(r ≤ q.val ∧ q.val < r + n) → (drawWide c strip fb)[q] = fb[q] := by
  intro n
  induction n with
  | zero => intro a r c strip fb q h _; cases h; rfl
  | succ n ih =>
    intro a r c strip fb q h hq
    obtain ⟨row, rest, rfl, ha, hrest, rfl⟩ := spriteStrip_succ_ok h
    simp only [drawWide]
    rw [ih (a + 1) (row.val + 1) (c + 1) rest _ q hrest (by omega), getElem_set_row, if_neg]
    intro e
    exact hq (by rw [e]; omega)

/-- What `DRW` can do: fault without an effect, draw wide, or draw. -/
theorem execDrw_cases (x y n : Nibble) (s : State) :
    (∃ f, spriteStrip s.mem s.i.toNat (s.readV y).toNat n.toNat = .error f ∧
      execDrw x y n s = .fault f) ∨
    (∃ strip, spriteStrip s.mem s.i.toNat (s.readV y).toNat n.toNat = .ok strip ∧
      n.toNat > 0 ∧ (s.readV x).toNat > 56 ∧
      execDrw x y n s = .next (((s.setFb (drawWide s.freeCtr strip s.fb)).writeV vf
        (Config.freeFlag s.freeCtr)).useFree strip.length).advance) ∨
    (∃ strip, spriteStrip s.mem s.i.toNat (s.readV y).toNat n.toNat = .ok strip ∧
      ¬(n.toNat > 0 ∧ (s.readV x).toNat > 56) ∧
      execDrw x y n s = .next ((s.setFb (drawStrip (s.readV x).toNat strip s.fb).1).writeV vf
        (flagBit (drawStrip (s.readV x).toNat strip s.fb).2)).advance) := by
  unfold execDrw
  split
  · rename_i f hf; exact .inl ⟨f, hf, rfl⟩
  · rename_i strip hs
    split
    · rename_i hw; exact .inr (.inl ⟨strip, hs, hw.1, hw.2, rfl⟩)
    · rename_i hw; exact .inr (.inr ⟨strip, hs, hw, rfl⟩)

/-- The row mask as a number: nothing is shifted out (R163). -/
theorem rowMask_toNat (b : Byte) (x0 : Nat) :
    (rowMask b x0).toNat = b.toNat * 2 ^ (56 - x0) := by
  have hb := b.isLt
  have h56 : 2 ^ (56 - x0) ≤ 2 ^ 56 := Nat.pow_le_pow_right (by omega) (by omega)
  have : b.toNat * 2 ^ (56 - x0) < 2 ^ 64 :=
    calc b.toNat * 2 ^ (56 - x0) ≤ b.toNat * 2 ^ 56 := Nat.mul_le_mul_left _ h56
      _ < 2 ^ 64 := by omega
  simp only [rowMask, BitVec.toNat_shiftLeft, BitVec.toNat_setWidth, Nat.shiftLeft_eq]
  rw [Nat.mod_eq_of_lt (by omega : b.toNat < 2 ^ 64), Nat.mod_eq_of_lt this]

end Sys2Proof.Machine
end

