-- ==== Sys2Proof/Laws/Flags.lean ====
section
/-! SUPPORT. The laws of the flag computations and of the arithmetic beside them, on numbers. -/

namespace Sys2Proof.Machine

theorem carryFlag_eq (a b : Byte) :
    carryFlag a b = if a.toNat + b.toNat > 255 then 1 else 0 := by
  simp [carryFlag, flagBit]

theorem noBorrowFlag_eq (e a b : Byte) :
    noBorrowFlag e a b = if a.toNat > b.toNat then 1 else if a.toNat = b.toNat then e else 0 := by
  simp [noBorrowFlag, BitVec.toNat_inj]

theorem lowBitFlag_eq (a : Byte) : lowBitFlag a = if a.toNat % 2 = 1 then 1 else 0 := by
  simp [lowBitFlag, flagBit, BitVec.getLsbD, Nat.testBit_zero]

theorem highBitFlag_eq (a : Byte) : highBitFlag a = if a.toNat ≥ 128 then 1 else 0 := by
  have := a.isLt
  have h : a.toNat.testBit 7 = decide (a.toNat ≥ 128) := by
    rw [Nat.testBit_eq_decide_div_mod_eq]
    apply decide_eq_decide.mpr
    omega
  simp [highBitFlag, flagBit, BitVec.getLsbD, h]

/-- A flag is 0 or 1. -/
theorem flagBit_cases (c : Bool) : flagBit c = 0 ∨ flagBit c = 1 := by
  cases c
  · exact .inl rfl
  · exact .inr rfl

/-- The sum modulo 256. -/
theorem add_eq_ofNat (a b : Byte) : a + b = BitVec.ofNat 8 (a.toNat + b.toNat) := by
  apply BitVec.eq_of_toNat_eq
  simp

theorem ushiftRight_one_eq_ofNat (a : Byte) : a >>> 1 = BitVec.ofNat 8 (a.toNat / 2) := by
  apply BitVec.eq_of_toNat_eq
  have := a.isLt
  simp only [BitVec.toNat_ushiftRight, Nat.shiftRight_eq_div_pow, BitVec.toNat_ofNat]
  omega

theorem shiftLeft_one_eq_ofNat (a : Byte) : a <<< 1 = BitVec.ofNat 8 (2 * a.toNat) := by
  apply BitVec.eq_of_toNat_eq
  simp only [BitVec.toNat_shiftLeft, Nat.shiftLeft_eq, BitVec.toNat_ofNat]
  omega

/-- The magnitude is the larger minus the smaller. -/
theorem magnitude_eq (a b : Byte) :
    magnitude a b = BitVec.ofNat 8 (max a.toNat b.toNat - min a.toNat b.toNat) := by
  unfold magnitude
  congr 1
  omega

end Sys2Proof.Machine
end

