-- ==== Sys2Proof/Laws/State.lean ====
section
/-! SUPPORT. One lemma per field per update of State, so that no later proof unfolds a record update. -/

namespace Sys2Proof.Machine

section
variable (s : State) (x : Nibble) (b : Byte)
@[simp] theorem State.writeV_v : (s.writeV x b).v = s.v.set x.toNat b x.isLt := rfl
@[simp] theorem State.writeV_i : (s.writeV x b).i = s.i := rfl
@[simp] theorem State.writeV_pc : (s.writeV x b).pc = s.pc := rfl
@[simp] theorem State.writeV_sp : (s.writeV x b).sp = s.sp := rfl
@[simp] theorem State.writeV_stk : (s.writeV x b).stk = s.stk := rfl
@[simp] theorem State.writeV_dt : (s.writeV x b).dt = s.dt := rfl
@[simp] theorem State.writeV_st : (s.writeV x b).st = s.st := rfl
@[simp] theorem State.writeV_fb : (s.writeV x b).fb = s.fb := rfl
@[simp] theorem State.writeV_mem : (s.writeV x b).mem = s.mem := rfl
@[simp] theorem State.writeV_kp : (s.writeV x b).kp = s.kp := rfl
@[simp] theorem State.writeV_kb : (s.writeV x b).kb = s.kb := rfl
@[simp] theorem State.writeV_phase : (s.writeV x b).phase = s.phase := rfl
@[simp] theorem State.writeV_wx : (s.writeV x b).wx = s.wx := rfl
@[simp] theorem State.writeV_prog : (s.writeV x b).prog = s.prog := rfl
@[simp] theorem State.writeV_schedule : (s.writeV x b).schedule = s.schedule := rfl
@[simp] theorem State.writeV_draws : (s.writeV x b).draws = s.draws := rfl
@[simp] theorem State.writeV_frame : (s.writeV x b).frame = s.frame := rfl
@[simp] theorem State.writeV_freeCtr : (s.writeV x b).freeCtr = s.freeCtr := rfl
@[simp] theorem State.writeV_accepted : (s.writeV x b).accepted = s.accepted := rfl
@[simp] theorem State.writeV_stackEntry (j : StackPointer) : (s.writeV x b).stackEntry j = s.stackEntry j := rfl
@[simp] theorem State.writeV_pixel (r : DisplayRow) (c : Nat) : (s.writeV x b).pixel r c = s.pixel r c := rfl
end

section
variable (s : State) (x : Nibble) (f b : Byte)
@[simp] theorem State.writeFlagResult_v : (s.writeFlagResult x f b).v = (s.v.set vf.toNat f vf.isLt).set x.toNat b x.isLt := rfl
@[simp] theorem State.writeFlagResult_i : (s.writeFlagResult x f b).i = s.i := rfl
@[simp] theorem State.writeFlagResult_pc : (s.writeFlagResult x f b).pc = s.pc := rfl
@[simp] theorem State.writeFlagResult_sp : (s.writeFlagResult x f b).sp = s.sp := rfl
@[simp] theorem State.writeFlagResult_stk : (s.writeFlagResult x f b).stk = s.stk := rfl
@[simp] theorem State.writeFlagResult_dt : (s.writeFlagResult x f b).dt = s.dt := rfl
@[simp] theorem State.writeFlagResult_st : (s.writeFlagResult x f b).st = s.st := rfl
@[simp] theorem State.writeFlagResult_fb : (s.writeFlagResult x f b).fb = s.fb := rfl
@[simp] theorem State.writeFlagResult_mem : (s.writeFlagResult x f b).mem = s.mem := rfl
@[simp] theorem State.writeFlagResult_kp : (s.writeFlagResult x f b).kp = s.kp := rfl
@[simp] theorem State.writeFlagResult_kb : (s.writeFlagResult x f b).kb = s.kb := rfl
@[simp] theorem State.writeFlagResult_phase : (s.writeFlagResult x f b).phase = s.phase := rfl
@[simp] theorem State.writeFlagResult_wx : (s.writeFlagResult x f b).wx = s.wx := rfl
@[simp] theorem State.writeFlagResult_prog : (s.writeFlagResult x f b).prog = s.prog := rfl
@[simp] theorem State.writeFlagResult_schedule : (s.writeFlagResult x f b).schedule = s.schedule := rfl
@[simp] theorem State.writeFlagResult_draws : (s.writeFlagResult x f b).draws = s.draws := rfl
@[simp] theorem State.writeFlagResult_frame : (s.writeFlagResult x f b).frame = s.frame := rfl
@[simp] theorem State.writeFlagResult_freeCtr : (s.writeFlagResult x f b).freeCtr = s.freeCtr := rfl
@[simp] theorem State.writeFlagResult_accepted : (s.writeFlagResult x f b).accepted = s.accepted := rfl
@[simp] theorem State.writeFlagResult_stackEntry (j : StackPointer) : (s.writeFlagResult x f b).stackEntry j = s.stackEntry j := rfl
@[simp] theorem State.writeFlagResult_pixel (r : DisplayRow) (c : Nat) : (s.writeFlagResult x f b).pixel r c = s.pixel r c := rfl
end

section
variable (s : State) (a : Word)
@[simp] theorem State.setI_v : (s.setI a).v = s.v := rfl
@[simp] theorem State.setI_i : (s.setI a).i = a := rfl
@[simp] theorem State.setI_pc : (s.setI a).pc = s.pc := rfl
@[simp] theorem State.setI_sp : (s.setI a).sp = s.sp := rfl
@[simp] theorem State.setI_stk : (s.setI a).stk = s.stk := rfl
@[simp] theorem State.setI_dt : (s.setI a).dt = s.dt := rfl
@[simp] theorem State.setI_st : (s.setI a).st = s.st := rfl
@[simp] theorem State.setI_fb : (s.setI a).fb = s.fb := rfl
@[simp] theorem State.setI_mem : (s.setI a).mem = s.mem := rfl
@[simp] theorem State.setI_kp : (s.setI a).kp = s.kp := rfl
@[simp] theorem State.setI_kb : (s.setI a).kb = s.kb := rfl
@[simp] theorem State.setI_phase : (s.setI a).phase = s.phase := rfl
@[simp] theorem State.setI_wx : (s.setI a).wx = s.wx := rfl
@[simp] theorem State.setI_prog : (s.setI a).prog = s.prog := rfl
@[simp] theorem State.setI_schedule : (s.setI a).schedule = s.schedule := rfl
@[simp] theorem State.setI_draws : (s.setI a).draws = s.draws := rfl
@[simp] theorem State.setI_frame : (s.setI a).frame = s.frame := rfl
@[simp] theorem State.setI_freeCtr : (s.setI a).freeCtr = s.freeCtr := rfl
@[simp] theorem State.setI_accepted : (s.setI a).accepted = s.accepted := rfl
@[simp] theorem State.setI_readV (x' : Nibble) : (s.setI a).readV x' = s.readV x' := rfl
@[simp] theorem State.setI_stackEntry (j : StackPointer) : (s.setI a).stackEntry j = s.stackEntry j := rfl
@[simp] theorem State.setI_pixel (r : DisplayRow) (c : Nat) : (s.setI a).pixel r c = s.pixel r c := rfl
end

section
variable (s : State) (p : Word)
@[simp] theorem State.setPc_v : (s.setPc p).v = s.v := rfl
@[simp] theorem State.setPc_i : (s.setPc p).i = s.i := rfl
@[simp] theorem State.setPc_pc : (s.setPc p).pc = p := rfl
@[simp] theorem State.setPc_sp : (s.setPc p).sp = s.sp := rfl
@[simp] theorem State.setPc_stk : (s.setPc p).stk = s.stk := rfl
@[simp] theorem State.setPc_dt : (s.setPc p).dt = s.dt := rfl
@[simp] theorem State.setPc_st : (s.setPc p).st = s.st := rfl
@[simp] theorem State.setPc_fb : (s.setPc p).fb = s.fb := rfl
@[simp] theorem State.setPc_mem : (s.setPc p).mem = s.mem := rfl
@[simp] theorem State.setPc_kp : (s.setPc p).kp = s.kp := rfl
@[simp] theorem State.setPc_kb : (s.setPc p).kb = s.kb := rfl
@[simp] theorem State.setPc_phase : (s.setPc p).phase = s.phase := rfl
@[simp] theorem State.setPc_wx : (s.setPc p).wx = s.wx := rfl
@[simp] theorem State.setPc_prog : (s.setPc p).prog = s.prog := rfl
@[simp] theorem State.setPc_schedule : (s.setPc p).schedule = s.schedule := rfl
@[simp] theorem State.setPc_draws : (s.setPc p).draws = s.draws := rfl
@[simp] theorem State.setPc_frame : (s.setPc p).frame = s.frame := rfl
@[simp] theorem State.setPc_freeCtr : (s.setPc p).freeCtr = s.freeCtr := rfl
@[simp] theorem State.setPc_accepted : (s.setPc p).accepted = s.accepted := rfl
@[simp] theorem State.setPc_readV (x' : Nibble) : (s.setPc p).readV x' = s.readV x' := rfl
@[simp] theorem State.setPc_stackEntry (j : StackPointer) : (s.setPc p).stackEntry j = s.stackEntry j := rfl
@[simp] theorem State.setPc_pixel (r : DisplayRow) (c : Nat) : (s.setPc p).pixel r c = s.pixel r c := rfl
end

section
variable (s : State)
@[simp] theorem State.advance_v : s.advance.v = s.v := rfl
@[simp] theorem State.advance_i : s.advance.i = s.i := rfl
@[simp] theorem State.advance_pc : s.advance.pc = s.pc + 1 := rfl
@[simp] theorem State.advance_sp : s.advance.sp = s.sp := rfl
@[simp] theorem State.advance_stk : s.advance.stk = s.stk := rfl
@[simp] theorem State.advance_dt : s.advance.dt = s.dt := rfl
@[simp] theorem State.advance_st : s.advance.st = s.st := rfl
@[simp] theorem State.advance_fb : s.advance.fb = s.fb := rfl
@[simp] theorem State.advance_mem : s.advance.mem = s.mem := rfl
@[simp] theorem State.advance_kp : s.advance.kp = s.kp := rfl
@[simp] theorem State.advance_kb : s.advance.kb = s.kb := rfl
@[simp] theorem State.advance_phase : s.advance.phase = s.phase := rfl
@[simp] theorem State.advance_wx : s.advance.wx = s.wx := rfl
@[simp] theorem State.advance_prog : s.advance.prog = s.prog := rfl
@[simp] theorem State.advance_schedule : s.advance.schedule = s.schedule := rfl
@[simp] theorem State.advance_draws : s.advance.draws = s.draws := rfl
@[simp] theorem State.advance_frame : s.advance.frame = s.frame := rfl
@[simp] theorem State.advance_freeCtr : s.advance.freeCtr = s.freeCtr := rfl
@[simp] theorem State.advance_accepted : s.advance.accepted = s.accepted := rfl
@[simp] theorem State.advance_readV (x' : Nibble) : s.advance.readV x' = s.readV x' := rfl
@[simp] theorem State.advance_stackEntry (j : StackPointer) : s.advance.stackEntry j = s.stackEntry j := rfl
@[simp] theorem State.advance_pixel (r : DisplayRow) (c : Nat) : s.advance.pixel r c = s.pixel r c := rfl
end

section
variable (s : State) (b : Byte)
@[simp] theorem State.setDt_v : (s.setDt b).v = s.v := rfl
@[simp] theorem State.setDt_i : (s.setDt b).i = s.i := rfl
@[simp] theorem State.setDt_pc : (s.setDt b).pc = s.pc := rfl
@[simp] theorem State.setDt_sp : (s.setDt b).sp = s.sp := rfl
@[simp] theorem State.setDt_stk : (s.setDt b).stk = s.stk := rfl
@[simp] theorem State.setDt_dt : (s.setDt b).dt = b := rfl
@[simp] theorem State.setDt_st : (s.setDt b).st = s.st := rfl
@[simp] theorem State.setDt_fb : (s.setDt b).fb = s.fb := rfl
@[simp] theorem State.setDt_mem : (s.setDt b).mem = s.mem := rfl
@[simp] theorem State.setDt_kp : (s.setDt b).kp = s.kp := rfl
@[simp] theorem State.setDt_kb : (s.setDt b).kb = s.kb := rfl
@[simp] theorem State.setDt_phase : (s.setDt b).phase = s.phase := rfl
@[simp] theorem State.setDt_wx : (s.setDt b).wx = s.wx := rfl
@[simp] theorem State.setDt_prog : (s.setDt b).prog = s.prog := rfl
@[simp] theorem State.setDt_schedule : (s.setDt b).schedule = s.schedule := rfl
@[simp] theorem State.setDt_draws : (s.setDt b).draws = s.draws := rfl
@[simp] theorem State.setDt_frame : (s.setDt b).frame = s.frame := rfl
@[simp] theorem State.setDt_freeCtr : (s.setDt b).freeCtr = s.freeCtr := rfl
@[simp] theorem State.setDt_accepted : (s.setDt b).accepted = s.accepted := rfl
@[simp] theorem State.setDt_readV (x' : Nibble) : (s.setDt b).readV x' = s.readV x' := rfl
@[simp] theorem State.setDt_stackEntry (j : StackPointer) : (s.setDt b).stackEntry j = s.stackEntry j := rfl
@[simp] theorem State.setDt_pixel (r : DisplayRow) (c : Nat) : (s.setDt b).pixel r c = s.pixel r c := rfl
end

section
variable (s : State) (b : Byte)
@[simp] theorem State.setSt_v : (s.setSt b).v = s.v := rfl
@[simp] theorem State.setSt_i : (s.setSt b).i = s.i := rfl
@[simp] theorem State.setSt_pc : (s.setSt b).pc = s.pc := rfl
@[simp] theorem State.setSt_sp : (s.setSt b).sp = s.sp := rfl
@[simp] theorem State.setSt_stk : (s.setSt b).stk = s.stk := rfl
@[simp] theorem State.setSt_dt : (s.setSt b).dt = s.dt := rfl
@[simp] theorem State.setSt_st : (s.setSt b).st = b := rfl
@[simp] theorem State.setSt_fb : (s.setSt b).fb = s.fb := rfl
@[simp] theorem State.setSt_mem : (s.setSt b).mem = s.mem := rfl
@[simp] theorem State.setSt_kp : (s.setSt b).kp = s.kp := rfl
@[simp] theorem State.setSt_kb : (s.setSt b).kb = s.kb := rfl
@[simp] theorem State.setSt_phase : (s.setSt b).phase = s.phase := rfl
@[simp] theorem State.setSt_wx : (s.setSt b).wx = s.wx := rfl
@[simp] theorem State.setSt_prog : (s.setSt b).prog = s.prog := rfl
@[simp] theorem State.setSt_schedule : (s.setSt b).schedule = s.schedule := rfl
@[simp] theorem State.setSt_draws : (s.setSt b).draws = s.draws := rfl
@[simp] theorem State.setSt_frame : (s.setSt b).frame = s.frame := rfl
@[simp] theorem State.setSt_freeCtr : (s.setSt b).freeCtr = s.freeCtr := rfl
@[simp] theorem State.setSt_accepted : (s.setSt b).accepted = s.accepted := rfl
@[simp] theorem State.setSt_readV (x' : Nibble) : (s.setSt b).readV x' = s.readV x' := rfl
@[simp] theorem State.setSt_stackEntry (j : StackPointer) : (s.setSt b).stackEntry j = s.stackEntry j := rfl
@[simp] theorem State.setSt_pixel (r : DisplayRow) (c : Nat) : (s.setSt b).pixel r c = s.pixel r c := rfl
end

section
variable (s : State) (fb : Framebuffer)
@[simp] theorem State.setFb_v : (s.setFb fb).v = s.v := rfl
@[simp] theorem State.setFb_i : (s.setFb fb).i = s.i := rfl
@[simp] theorem State.setFb_pc : (s.setFb fb).pc = s.pc := rfl
@[simp] theorem State.setFb_sp : (s.setFb fb).sp = s.sp := rfl
@[simp] theorem State.setFb_stk : (s.setFb fb).stk = s.stk := rfl
@[simp] theorem State.setFb_dt : (s.setFb fb).dt = s.dt := rfl
@[simp] theorem State.setFb_st : (s.setFb fb).st = s.st := rfl
@[simp] theorem State.setFb_fb : (s.setFb fb).fb = fb := rfl
@[simp] theorem State.setFb_mem : (s.setFb fb).mem = s.mem := rfl
@[simp] theorem State.setFb_kp : (s.setFb fb).kp = s.kp := rfl
@[simp] theorem State.setFb_kb : (s.setFb fb).kb = s.kb := rfl
@[simp] theorem State.setFb_phase : (s.setFb fb).phase = s.phase := rfl
@[simp] theorem State.setFb_wx : (s.setFb fb).wx = s.wx := rfl
@[simp] theorem State.setFb_prog : (s.setFb fb).prog = s.prog := rfl
@[simp] theorem State.setFb_schedule : (s.setFb fb).schedule = s.schedule := rfl
@[simp] theorem State.setFb_draws : (s.setFb fb).draws = s.draws := rfl
@[simp] theorem State.setFb_frame : (s.setFb fb).frame = s.frame := rfl
@[simp] theorem State.setFb_freeCtr : (s.setFb fb).freeCtr = s.freeCtr := rfl
@[simp] theorem State.setFb_accepted : (s.setFb fb).accepted = s.accepted := rfl
@[simp] theorem State.setFb_readV (x' : Nibble) : (s.setFb fb).readV x' = s.readV x' := rfl
@[simp] theorem State.setFb_stackEntry (j : StackPointer) : (s.setFb fb).stackEntry j = s.stackEntry j := rfl
end

section
variable (s : State) (p : Word)
@[simp] theorem State.push_v : (s.push p).v = s.v := rfl
@[simp] theorem State.push_i : (s.push p).i = s.i := rfl
@[simp] theorem State.push_pc : (s.push p).pc = s.pc := rfl
@[simp] theorem State.push_sp : (s.push p).sp = s.sp + 1 := rfl
@[simp] theorem State.push_stk : (s.push p).stk = s.stk.set (s.sp + 1).toNat p (s.sp + 1).isLt := rfl
@[simp] theorem State.push_dt : (s.push p).dt = s.dt := rfl
@[simp] theorem State.push_st : (s.push p).st = s.st := rfl
@[simp] theorem State.push_fb : (s.push p).fb = s.fb := rfl
@[simp] theorem State.push_mem : (s.push p).mem = s.mem := rfl
@[simp] theorem State.push_kp : (s.push p).kp = s.kp := rfl
@[simp] theorem State.push_kb : (s.push p).kb = s.kb := rfl
@[simp] theorem State.push_phase : (s.push p).phase = s.phase := rfl
@[simp] theorem State.push_wx : (s.push p).wx = s.wx := rfl
@[simp] theorem State.push_prog : (s.push p).prog = s.prog := rfl
@[simp] theorem State.push_schedule : (s.push p).schedule = s.schedule := rfl
@[simp] theorem State.push_draws : (s.push p).draws = s.draws := rfl
@[simp] theorem State.push_frame : (s.push p).frame = s.frame := rfl
@[simp] theorem State.push_freeCtr : (s.push p).freeCtr = s.freeCtr := rfl
@[simp] theorem State.push_accepted : (s.push p).accepted = s.accepted := rfl
@[simp] theorem State.push_readV (x' : Nibble) : (s.push p).readV x' = s.readV x' := rfl
@[simp] theorem State.push_pixel (r : DisplayRow) (c : Nat) : (s.push p).pixel r c = s.pixel r c := rfl
end

section
variable (s : State)
@[simp] theorem State.pop_v : s.pop.v = s.v := rfl
@[simp] theorem State.pop_i : s.pop.i = s.i := rfl
@[simp] theorem State.pop_pc : s.pop.pc = s.pc := rfl
@[simp] theorem State.pop_sp : s.pop.sp = s.sp - 1 := rfl
@[simp] theorem State.pop_stk : s.pop.stk = s.stk := rfl
@[simp] theorem State.pop_dt : s.pop.dt = s.dt := rfl
@[simp] theorem State.pop_st : s.pop.st = s.st := rfl
@[simp] theorem State.pop_fb : s.pop.fb = s.fb := rfl
@[simp] theorem State.pop_mem : s.pop.mem = s.mem := rfl
@[simp] theorem State.pop_kp : s.pop.kp = s.kp := rfl
@[simp] theorem State.pop_kb : s.pop.kb = s.kb := rfl
@[simp] theorem State.pop_phase : s.pop.phase = s.phase := rfl
@[simp] theorem State.pop_wx : s.pop.wx = s.wx := rfl
@[simp] theorem State.pop_prog : s.pop.prog = s.prog := rfl
@[simp] theorem State.pop_schedule : s.pop.schedule = s.schedule := rfl
@[simp] theorem State.pop_draws : s.pop.draws = s.draws := rfl
@[simp] theorem State.pop_frame : s.pop.frame = s.frame := rfl
@[simp] theorem State.pop_freeCtr : s.pop.freeCtr = s.freeCtr := rfl
@[simp] theorem State.pop_accepted : s.pop.accepted = s.accepted := rfl
@[simp] theorem State.pop_readV (x' : Nibble) : s.pop.readV x' = s.readV x' := rfl
@[simp] theorem State.pop_stackEntry (j : StackPointer) : s.pop.stackEntry j = s.stackEntry j := rfl
@[simp] theorem State.pop_pixel (r : DisplayRow) (c : Nat) : s.pop.pixel r c = s.pixel r c := rfl
end

section
variable (s : State) (k : Nat)
@[simp] theorem State.useFree_v : (s.useFree k).v = s.v := rfl
@[simp] theorem State.useFree_i : (s.useFree k).i = s.i := rfl
@[simp] theorem State.useFree_pc : (s.useFree k).pc = s.pc := rfl
@[simp] theorem State.useFree_sp : (s.useFree k).sp = s.sp := rfl
@[simp] theorem State.useFree_stk : (s.useFree k).stk = s.stk := rfl
@[simp] theorem State.useFree_dt : (s.useFree k).dt = s.dt := rfl
@[simp] theorem State.useFree_st : (s.useFree k).st = s.st := rfl
@[simp] theorem State.useFree_fb : (s.useFree k).fb = s.fb := rfl
@[simp] theorem State.useFree_mem : (s.useFree k).mem = s.mem := rfl
@[simp] theorem State.useFree_kp : (s.useFree k).kp = s.kp := rfl
@[simp] theorem State.useFree_kb : (s.useFree k).kb = s.kb := rfl
@[simp] theorem State.useFree_phase : (s.useFree k).phase = s.phase := rfl
@[simp] theorem State.useFree_wx : (s.useFree k).wx = s.wx := rfl
@[simp] theorem State.useFree_prog : (s.useFree k).prog = s.prog := rfl
@[simp] theorem State.useFree_schedule : (s.useFree k).schedule = s.schedule := rfl
@[simp] theorem State.useFree_draws : (s.useFree k).draws = s.draws := rfl
@[simp] theorem State.useFree_frame : (s.useFree k).frame = s.frame := rfl
@[simp] theorem State.useFree_freeCtr : (s.useFree k).freeCtr = s.freeCtr + k := rfl
@[simp] theorem State.useFree_accepted : (s.useFree k).accepted = s.accepted := rfl
@[simp] theorem State.useFree_readV (x' : Nibble) : (s.useFree k).readV x' = s.readV x' := rfl
@[simp] theorem State.useFree_stackEntry (j : StackPointer) : (s.useFree k).stackEntry j = s.stackEntry j := rfl
@[simp] theorem State.useFree_pixel (r : DisplayRow) (c : Nat) : (s.useFree k).pixel r c = s.pixel r c := rfl
end

section
variable (s : State) (k : Nibble)
@[simp] theorem State.pressKey_v : (s.pressKey k).v = s.v := rfl
@[simp] theorem State.pressKey_i : (s.pressKey k).i = s.i := rfl
@[simp] theorem State.pressKey_pc : (s.pressKey k).pc = s.pc := rfl
@[simp] theorem State.pressKey_sp : (s.pressKey k).sp = s.sp := rfl
@[simp] theorem State.pressKey_stk : (s.pressKey k).stk = s.stk := rfl
@[simp] theorem State.pressKey_dt : (s.pressKey k).dt = s.dt := rfl
@[simp] theorem State.pressKey_st : (s.pressKey k).st = s.st := rfl
@[simp] theorem State.pressKey_fb : (s.pressKey k).fb = s.fb := rfl
@[simp] theorem State.pressKey_mem : (s.pressKey k).mem = s.mem := rfl
@[simp] theorem State.pressKey_kp : (s.pressKey k).kp = s.kp ||| 1#16 <<< k.toNat := rfl
@[simp] theorem State.pressKey_kb : (s.pressKey k).kb = s.kb := rfl
@[simp] theorem State.pressKey_phase : (s.pressKey k).phase = s.phase := rfl
@[simp] theorem State.pressKey_wx : (s.pressKey k).wx = s.wx := rfl
@[simp] theorem State.pressKey_prog : (s.pressKey k).prog = s.prog := rfl
@[simp] theorem State.pressKey_schedule : (s.pressKey k).schedule = s.schedule := rfl
@[simp] theorem State.pressKey_draws : (s.pressKey k).draws = s.draws := rfl
@[simp] theorem State.pressKey_frame : (s.pressKey k).frame = s.frame := rfl
@[simp] theorem State.pressKey_freeCtr : (s.pressKey k).freeCtr = s.freeCtr := rfl
@[simp] theorem State.pressKey_accepted : (s.pressKey k).accepted = s.accepted := rfl
@[simp] theorem State.pressKey_readV (x' : Nibble) : (s.pressKey k).readV x' = s.readV x' := rfl
@[simp] theorem State.pressKey_stackEntry (j : StackPointer) : (s.pressKey k).stackEntry j = s.stackEntry j := rfl
@[simp] theorem State.pressKey_pixel (r : DisplayRow) (c : Nat) : (s.pressKey k).pixel r c = s.pixel r c := rfl
end

section
variable (s : State) (k : Nibble)
@[simp] theorem State.releaseKey_v : (s.releaseKey k).v = s.v := rfl
@[simp] theorem State.releaseKey_i : (s.releaseKey k).i = s.i := rfl
@[simp] theorem State.releaseKey_pc : (s.releaseKey k).pc = s.pc := rfl
@[simp] theorem State.releaseKey_sp : (s.releaseKey k).sp = s.sp := rfl
@[simp] theorem State.releaseKey_stk : (s.releaseKey k).stk = s.stk := rfl
@[simp] theorem State.releaseKey_dt : (s.releaseKey k).dt = s.dt := rfl
@[simp] theorem State.releaseKey_st : (s.releaseKey k).st = s.st := rfl
@[simp] theorem State.releaseKey_fb : (s.releaseKey k).fb = s.fb := rfl
@[simp] theorem State.releaseKey_mem : (s.releaseKey k).mem = s.mem := rfl
@[simp] theorem State.releaseKey_kp : (s.releaseKey k).kp = s.kp &&& ~~~(1#16 <<< k.toNat) := rfl
@[simp] theorem State.releaseKey_kb : (s.releaseKey k).kb = s.kb := rfl
@[simp] theorem State.releaseKey_phase : (s.releaseKey k).phase = s.phase := rfl
@[simp] theorem State.releaseKey_wx : (s.releaseKey k).wx = s.wx := rfl
@[simp] theorem State.releaseKey_prog : (s.releaseKey k).prog = s.prog := rfl
@[simp] theorem State.releaseKey_schedule : (s.releaseKey k).schedule = s.schedule := rfl
@[simp] theorem State.releaseKey_draws : (s.releaseKey k).draws = s.draws := rfl
@[simp] theorem State.releaseKey_frame : (s.releaseKey k).frame = s.frame := rfl
@[simp] theorem State.releaseKey_freeCtr : (s.releaseKey k).freeCtr = s.freeCtr := rfl
@[simp] theorem State.releaseKey_accepted : (s.releaseKey k).accepted = s.accepted := rfl
@[simp] theorem State.releaseKey_readV (x' : Nibble) : (s.releaseKey k).readV x' = s.readV x' := rfl
@[simp] theorem State.releaseKey_stackEntry (j : StackPointer) : (s.releaseKey k).stackEntry j = s.stackEntry j := rfl
@[simp] theorem State.releaseKey_pixel (r : DisplayRow) (c : Nat) : (s.releaseKey k).pixel r c = s.pixel r c := rfl
end

section
variable (s : State)
@[simp] theorem State.takeSnapshot_v : s.takeSnapshot.v = s.v := rfl
@[simp] theorem State.takeSnapshot_i : s.takeSnapshot.i = s.i := rfl
@[simp] theorem State.takeSnapshot_pc : s.takeSnapshot.pc = s.pc := rfl
@[simp] theorem State.takeSnapshot_sp : s.takeSnapshot.sp = s.sp := rfl
@[simp] theorem State.takeSnapshot_stk : s.takeSnapshot.stk = s.stk := rfl
@[simp] theorem State.takeSnapshot_dt : s.takeSnapshot.dt = s.dt := rfl
@[simp] theorem State.takeSnapshot_st : s.takeSnapshot.st = s.st := rfl
@[simp] theorem State.takeSnapshot_fb : s.takeSnapshot.fb = s.fb := rfl
@[simp] theorem State.takeSnapshot_mem : s.takeSnapshot.mem = s.mem := rfl
@[simp] theorem State.takeSnapshot_kp : s.takeSnapshot.kp = s.kp := rfl
@[simp] theorem State.takeSnapshot_kb : s.takeSnapshot.kb = s.kb := rfl
@[simp] theorem State.takeSnapshot_phase : s.takeSnapshot.phase = s.phase := rfl
@[simp] theorem State.takeSnapshot_wx : s.takeSnapshot.wx = s.wx := rfl
@[simp] theorem State.takeSnapshot_prog : s.takeSnapshot.prog = s.prog := rfl
@[simp] theorem State.takeSnapshot_schedule : s.takeSnapshot.schedule = s.schedule := rfl
@[simp] theorem State.takeSnapshot_draws : s.takeSnapshot.draws = s.draws := rfl
@[simp] theorem State.takeSnapshot_frame : s.takeSnapshot.frame = some s.fb := rfl
@[simp] theorem State.takeSnapshot_freeCtr : s.takeSnapshot.freeCtr = s.freeCtr := rfl
@[simp] theorem State.takeSnapshot_accepted : s.takeSnapshot.accepted = s.accepted := rfl
@[simp] theorem State.takeSnapshot_readV (x' : Nibble) : s.takeSnapshot.readV x' = s.readV x' := rfl
@[simp] theorem State.takeSnapshot_stackEntry (j : StackPointer) : s.takeSnapshot.stackEntry j = s.stackEntry j := rfl
@[simp] theorem State.takeSnapshot_pixel (r : DisplayRow) (c : Nat) : s.takeSnapshot.pixel r c = s.pixel r c := rfl
end

/-- A skip only sets the program counter. -/
theorem State.skipIf_eq (s : State) (c : Bool) :
    s.skipIf c = s.setPc (if c then s.pc + 2 else s.pc + 1) := by
  cases c <;> rfl

@[simp] theorem State.skipIf_v (s : State) (c : Bool) : (s.skipIf c).v = s.v := by rw [skipIf_eq]; rfl
@[simp] theorem State.skipIf_i (s : State) (c : Bool) : (s.skipIf c).i = s.i := by rw [skipIf_eq]; rfl
@[simp] theorem State.skipIf_sp (s : State) (c : Bool) : (s.skipIf c).sp = s.sp := by rw [skipIf_eq]; rfl
@[simp] theorem State.skipIf_stk (s : State) (c : Bool) : (s.skipIf c).stk = s.stk := by rw [skipIf_eq]; rfl
@[simp] theorem State.skipIf_dt (s : State) (c : Bool) : (s.skipIf c).dt = s.dt := by rw [skipIf_eq]; rfl
@[simp] theorem State.skipIf_st (s : State) (c : Bool) : (s.skipIf c).st = s.st := by rw [skipIf_eq]; rfl
@[simp] theorem State.skipIf_fb (s : State) (c : Bool) : (s.skipIf c).fb = s.fb := by rw [skipIf_eq]; rfl
@[simp] theorem State.skipIf_mem (s : State) (c : Bool) : (s.skipIf c).mem = s.mem := by rw [skipIf_eq]; rfl
@[simp] theorem State.skipIf_kp (s : State) (c : Bool) : (s.skipIf c).kp = s.kp := by rw [skipIf_eq]; rfl
@[simp] theorem State.skipIf_kb (s : State) (c : Bool) : (s.skipIf c).kb = s.kb := by rw [skipIf_eq]; rfl
@[simp] theorem State.skipIf_phase (s : State) (c : Bool) : (s.skipIf c).phase = s.phase := by rw [skipIf_eq]; rfl
@[simp] theorem State.skipIf_wx (s : State) (c : Bool) : (s.skipIf c).wx = s.wx := by rw [skipIf_eq]; rfl
@[simp] theorem State.skipIf_prog (s : State) (c : Bool) : (s.skipIf c).prog = s.prog := by rw [skipIf_eq]; rfl
@[simp] theorem State.skipIf_schedule (s : State) (c : Bool) : (s.skipIf c).schedule = s.schedule := by rw [skipIf_eq]; rfl
@[simp] theorem State.skipIf_draws (s : State) (c : Bool) : (s.skipIf c).draws = s.draws := by rw [skipIf_eq]; rfl
@[simp] theorem State.skipIf_frame (s : State) (c : Bool) : (s.skipIf c).frame = s.frame := by rw [skipIf_eq]; rfl
@[simp] theorem State.skipIf_freeCtr (s : State) (c : Bool) : (s.skipIf c).freeCtr = s.freeCtr := by rw [skipIf_eq]; rfl
@[simp] theorem State.skipIf_accepted (s : State) (c : Bool) : (s.skipIf c).accepted = s.accepted := by rw [skipIf_eq]; rfl
@[simp] theorem State.skipIf_pc (s : State) (c : Bool) :
    (s.skipIf c).pc = if c then s.pc + 2 else s.pc + 1 := by rw [skipIf_eq]; rfl
@[simp] theorem State.skipIf_readV (s : State) (c : Bool) (x : Nibble) :
    (s.skipIf c).readV x = s.readV x := by rw [skipIf_eq]; rfl
@[simp] theorem State.skipIf_stackEntry (s : State) (c : Bool) (j : StackPointer) :
    (s.skipIf c).stackEntry j = s.stackEntry j := by rw [skipIf_eq]; rfl

/-- A state is given by its fields: two states that agree on each are equal. -/
theorem State.ext_fields {s t : State} (hv : s.v = t.v) (hi : s.i = t.i) (hpc : s.pc = t.pc)
    (hsp : s.sp = t.sp) (hstk : s.stk = t.stk) (hdt : s.dt = t.dt) (hst : s.st = t.st)
    (hfb : s.fb = t.fb) (hmem : s.mem = t.mem) (hkp : s.kp = t.kp) (hkb : s.kb = t.kb)
    (hphase : s.phase = t.phase) (hwx : s.wx = t.wx) (hprog : s.prog = t.prog)
    (hschedule : s.schedule = t.schedule) (hdraws : s.draws = t.draws)
    (hframe : s.frame = t.frame) (hacc : s.accepted = t.accepted)
    (hfree : s.freeCtr = t.freeCtr) : s = t := by
  cases s; cases t; simp_all

section
variable (s : State)
@[simp] theorem State.completeWait_i : s.completeWait.i = s.i := rfl
@[simp] theorem State.completeWait_pc : s.completeWait.pc = s.pc + 1 := rfl
@[simp] theorem State.completeWait_sp : s.completeWait.sp = s.sp := rfl
@[simp] theorem State.completeWait_stk : s.completeWait.stk = s.stk := rfl
@[simp] theorem State.completeWait_dt : s.completeWait.dt = s.dt := rfl
@[simp] theorem State.completeWait_st : s.completeWait.st = s.st := rfl
@[simp] theorem State.completeWait_fb : s.completeWait.fb = s.fb := rfl
@[simp] theorem State.completeWait_mem : s.completeWait.mem = s.mem := rfl
@[simp] theorem State.completeWait_kp : s.completeWait.kp = s.kp := rfl
@[simp] theorem State.completeWait_kb : s.completeWait.kb = s.kb := rfl
@[simp] theorem State.completeWait_phase : s.completeWait.phase = .ready := rfl
@[simp] theorem State.completeWait_wx : s.completeWait.wx = s.wx := rfl
@[simp] theorem State.completeWait_prog : s.completeWait.prog = s.prog := rfl
@[simp] theorem State.completeWait_schedule : s.completeWait.schedule = s.schedule := rfl
@[simp] theorem State.completeWait_draws : s.completeWait.draws = s.draws := rfl
@[simp] theorem State.completeWait_frame : s.completeWait.frame = s.frame := rfl
@[simp] theorem State.completeWait_freeCtr : s.completeWait.freeCtr = s.freeCtr + 1 := rfl
@[simp] theorem State.completeWait_accepted : s.completeWait.accepted = s.accepted := rfl
@[simp] theorem State.completeWait_stackEntry (j : StackPointer) : s.completeWait.stackEntry j = s.stackEntry j := rfl
end

section
variable (s : State) (image : List Host.Cell)
@[simp] theorem State.resetBlock_v : (s.resetBlock image).v = State.reset.v := rfl
@[simp] theorem State.resetBlock_i : (s.resetBlock image).i = State.reset.i := rfl
@[simp] theorem State.resetBlock_pc : (s.resetBlock image).pc = State.reset.pc := rfl
@[simp] theorem State.resetBlock_sp : (s.resetBlock image).sp = State.reset.sp := rfl
@[simp] theorem State.resetBlock_stk : (s.resetBlock image).stk = State.reset.stk := rfl
@[simp] theorem State.resetBlock_dt : (s.resetBlock image).dt = State.reset.dt := rfl
@[simp] theorem State.resetBlock_st : (s.resetBlock image).st = State.reset.st := rfl
@[simp] theorem State.resetBlock_fb : (s.resetBlock image).fb = State.reset.fb := rfl
@[simp] theorem State.resetBlock_mem : (s.resetBlock image).mem = Memory.ofImage image := rfl
@[simp] theorem State.resetBlock_kp : (s.resetBlock image).kp = State.reset.kp := rfl
@[simp] theorem State.resetBlock_kb : (s.resetBlock image).kb = State.reset.kb := rfl
@[simp] theorem State.resetBlock_phase : (s.resetBlock image).phase = State.reset.phase := rfl
@[simp] theorem State.resetBlock_wx : (s.resetBlock image).wx = State.reset.wx := rfl
@[simp] theorem State.resetBlock_prog : (s.resetBlock image).prog = s.prog := rfl
@[simp] theorem State.resetBlock_schedule : (s.resetBlock image).schedule = s.schedule := rfl
@[simp] theorem State.resetBlock_draws : (s.resetBlock image).draws = s.draws := rfl
@[simp] theorem State.resetBlock_frame : (s.resetBlock image).frame = s.frame := rfl
@[simp] theorem State.resetBlock_freeCtr : (s.resetBlock image).freeCtr = s.freeCtr := rfl
@[simp] theorem State.resetBlock_accepted : (s.resetBlock image).accepted = State.reset.accepted := rfl
end

section
variable (s : State) (w : Word)
@[simp] theorem State.accept_v : (s.accept w).v = s.v := rfl
@[simp] theorem State.accept_i : (s.accept w).i = s.i := rfl
@[simp] theorem State.accept_pc : (s.accept w).pc = s.pc := rfl
@[simp] theorem State.accept_sp : (s.accept w).sp = s.sp := rfl
@[simp] theorem State.accept_stk : (s.accept w).stk = s.stk := rfl
@[simp] theorem State.accept_dt : (s.accept w).dt = s.dt := rfl
@[simp] theorem State.accept_st : (s.accept w).st = s.st := rfl
@[simp] theorem State.accept_fb : (s.accept w).fb = s.fb := rfl
@[simp] theorem State.accept_mem : (s.accept w).mem = s.mem := rfl
@[simp] theorem State.accept_kp : (s.accept w).kp = s.kp := rfl
@[simp] theorem State.accept_kb : (s.accept w).kb = s.kb := rfl
@[simp] theorem State.accept_phase : (s.accept w).phase = s.phase := rfl
@[simp] theorem State.accept_wx : (s.accept w).wx = s.wx := rfl
@[simp] theorem State.accept_prog : (s.accept w).prog = s.prog := rfl
@[simp] theorem State.accept_schedule : (s.accept w).schedule = s.schedule := rfl
@[simp] theorem State.accept_draws : (s.accept w).draws = s.draws := rfl
@[simp] theorem State.accept_frame : (s.accept w).frame = s.frame := rfl
@[simp] theorem State.accept_accepted : (s.accept w).accepted = some (s.pc, w) := rfl
@[simp] theorem State.accept_freeCtr : (s.accept w).freeCtr = s.freeCtr := rfl
@[simp] theorem State.accept_readV (x : Nibble) : (s.accept w).readV x = s.readV x := rfl
@[simp] theorem State.accept_stackEntry (j : StackPointer) :
    (s.accept w).stackEntry j = s.stackEntry j := rfl
@[simp] theorem State.accept_pixel (r : DisplayRow) (c : Nat) :
    (s.accept w).pixel r c = s.pixel r c := rfl
end

/-- The tick is absent, as decided (D21). -/
@[simp] theorem State.tick_eq (s : State) : s.tick = s := rfl

/-- `UNDEF` is a no-op, as decided (D3). -/
@[simp] theorem execUndef_eq (w : Word) (s : State) : execUndef w s = .next s.advance := rfl

end Sys2Proof.Machine
end

