-- ==== Sys2Proof/Laws/Registers.lean ====
section
/-! SUPPORT. The laws of the register file and the stack: what a read gives after a write. -/

namespace Sys2Proof.Machine

/-- A read after a write: the value written at that register, the old value elsewhere. -/
theorem State.readV_writeV (s : State) (x r : Nibble) (b : Byte) :
    (s.writeV x b).readV r = if x = r then b else s.readV r := by
  simp [State.readV, State.writeV, Vector.getElem_set, BitVec.toNat_inj]

@[simp] theorem State.readV_writeV_same (s : State) (x : Nibble) (b : Byte) :
    (s.writeV x b).readV x = b := by simp [State.readV_writeV]

theorem State.readV_writeV_ne (s : State) {x r : Nibble} (b : Byte) (h : r ≠ x) :
    (s.writeV x b).readV r = s.readV r := by simp [State.readV_writeV, Ne.symm h]

/-- The result is written last: it is what `V[x]` holds, also for `x = 15` (R131). -/
@[simp] theorem State.readV_writeFlagResult_result (s : State) (x : Nibble) (f b : Byte) :
    (s.writeFlagResult x f b).readV x = b := by simp [State.writeFlagResult]

/-- Where the result goes elsewhere, `VF` holds the flag (R131). -/
theorem State.readV_writeFlagResult_flag (s : State) {x : Nibble} (f b : Byte) (h : x ≠ vf) :
    (s.writeFlagResult x f b).readV vf = f := by
  simp [State.writeFlagResult, State.readV_writeV, h]

/-- The other registers keep their values. -/
theorem State.readV_writeFlagResult_ne (s : State) {x r : Nibble} (f b : Byte) (hf : r ≠ vf)
    (hx : r ≠ x) : (s.writeFlagResult x f b).readV r = s.readV r := by
  simp [State.writeFlagResult, State.readV_writeV, Ne.symm hf, Ne.symm hx]

/-- The stack pointer has the decided width (D7). -/
theorem config_spWidth : config.spWidth = 4 := rfl

/-- A stack pointer one up, as a number. -/
theorem StackPointer.toNat_succ (p : StackPointer) : (p + 1).toNat = (p.toNat + 1) % 16 :=
  BitVec.toNat_add p 1

/-- A stack pointer one down, as a number. -/
theorem StackPointer.toNat_pred (p : StackPointer) : (p - 1).toNat = (15 + p.toNat) % 16 :=
  BitVec.toNat_sub p 1

/-- The stack after a push: the pushed slot at the incremented stack pointer, all else as before. -/
theorem State.stackEntry_push (s : State) (p : Word) (j : StackPointer) :
    (s.push p).stackEntry j = if s.sp + 1 = j then p else s.stackEntry j := by
  simp only [State.stackEntry, State.push, Vector.getElem_set, BitVec.toNat_inj]

/-- Short of 15 the stack pointer rises by one, unwrapped. -/
theorem State.sp_push_toNat (s : State) (p : Word) (h : s.sp ≠ 15) :
    (s.push p).sp.toNat = s.sp.toNat + 1 := by
  have h15 : s.sp.toNat ≠ 15 := fun e => h (BitVec.eq_of_toNat_eq e)
  have hlt := s.sp.toNat_lt
  rw [State.push_sp, StackPointer.toNat_succ]
  omega

/-- Above 0 the stack pointer falls by one, unwrapped. -/
theorem State.sp_pop_toNat (s : State) (h : s.sp ≠ 0) : s.pop.sp.toNat + 1 = s.sp.toNat := by
  have h0 : s.sp.toNat ≠ 0 := fun e => h (BitVec.eq_of_toNat_eq e)
  have hlt := s.sp.toNat_lt
  rw [State.pop_sp, StackPointer.toNat_pred]
  omega

/-- A pop undoes a push, but for the entry the push wrote. -/
@[simp] theorem State.sp_pop_push (s : State) (p : Word) : (s.push p).pop.sp = s.sp := by
  simp

end Sys2Proof.Machine
end

