-- ==== Sys2Proof/Laws/Keyboard.lean ====
section
/-! SUPPORT. The laws of the keyboard: key events bit by bit, and which key a wait returns. -/

namespace Sys2Proof.Machine

/-- The set of one key. -/
theorem getLsbD_oneKey (k j : Nibble) : (1#16 <<< k.toNat).getLsbD j.toNat = decide (j = k) := by
  have hk := k.isLt
  have hj := j.isLt
  simp only [BitVec.getLsbD_shiftLeft, BitVec.getLsbD_one]
  rcases Nat.lt_trichotomy j.toNat k.toNat with h | h | h
  · have : j ≠ k := fun e => by subst e; omega
    simp [h, this]
  · have : j = k := BitVec.eq_of_toNat_eq h
    subst this
    simp
    omega
  · have : j ≠ k := fun e => by subst e; omega
    simp [this]
    omega

/-- `set_pressed(k)` presses `k` and no other key (R183). -/
theorem State.getLsbD_pressKey (s : State) (k j : Nibble) :
    (s.pressKey k).kp.getLsbD j.toNat = if j = k then true else s.kp.getLsbD j.toNat := by
  rw [State.pressKey_kp, BitVec.getLsbD_or, getLsbD_oneKey]
  by_cases h : j = k <;> simp [h]

/-- `set_unpressed(k)` releases `k` and no other key (R184). -/
theorem State.getLsbD_releaseKey (s : State) (k j : Nibble) :
    (s.releaseKey k).kp.getLsbD j.toNat = if j = k then false else s.kp.getLsbD j.toNat := by
  have hj := j.isLt
  rw [State.releaseKey_kp, BitVec.getLsbD_and, BitVec.getLsbD_not, getLsbD_oneKey]
  by_cases h : j = k <;> simp [h]
  omega

/-- Two sets of keys are equal when they have the same members. -/
theorem keys_ext {a b : Word} (h : ∀ k : Nibble, a.getLsbD k.toNat = b.getLsbD k.toNat) : a = b := by
  apply BitVec.eq_of_getLsbD_eq
  intro i hi
  have := h (BitVec.ofNat 4 i)
  rwa [BitVec.toNat_ofNat, Nat.mod_eq_of_lt hi] at this

/-- A key is new when it is pressed and not in the baseline (R190). -/
theorem State.getLsbD_newKeys (s : State) (k : Nibble) :
    s.newKeys.getLsbD k.toNat = (s.kp.getLsbD k.toNat && !s.kb.getLsbD k.toNat) := by
  have hk := k.isLt
  simp only [State.newKeys, BitVec.getLsbD_and, BitVec.getLsbD_not]
  simp [show k.toNat < 16 from hk]

/-- No key is new exactly when every pressed key is in the baseline. -/
theorem State.newKeys_eq_zero_iff (s : State) : s.newKeys = 0 ↔
    ∀ k : Nibble, s.kp.getLsbD k.toNat = true → s.kb.getLsbD k.toNat = true := by
  constructor
  · intro h k hk
    have := s.getLsbD_newKeys k
    rw [h, hk] at this
    simpa using this
  · intro h
    apply keys_ext
    intro k
    rw [s.getLsbD_newKeys]
    have := h k
    cases hp : s.kp.getLsbD k.toNat <;> simp_all

theorem mem_keyMembers (set : Word) (k : Nibble) :
    k ∈ keyMembers set ↔ set.getLsbD k.toNat = true := by
  have all : ∀ k : Nibble,
      k ∈ ([0, 1, 2, 3, 4, 5, 6, 7, 8, 9, 10, 11, 12, 13, 14, 15] : List Nibble) := by decide
  simp only [keyMembers, List.mem_filter, all k, true_and]

/-- Whatever the choice, the selected key is a member of a set that has one (R191). -/
theorem selectKey_mem (choice : Nat) {set : Word} (h : set ≠ 0) :
    set.getLsbD (selectKey choice set).toNat = true := by
  rw [← mem_keyMembers]
  unfold selectKey
  split
  · rename_i hm
    exfalso
    apply h
    apply keys_ext
    intro k
    have := mem_keyMembers set k
    rw [hm] at this
    simpa using this
  · rename_i hm; rw [hm]; exact List.mem_singleton.mpr rfl
  · rename_i k ks _ hm
    rw [hm]
    have hlt : choice % (k :: ks).length < (k :: ks).length := Nat.mod_lt _ (Nat.succ_pos _)
    rw [List.getD_eq_getElem _ _ hlt]
    exact List.getElem_mem hlt

/-- A set of one key has no choice. -/
theorem selectKey_of_unique (choice : Nat) {set : Word} {k : Nibble}
    (hk : set.getLsbD k.toNat = true) (hu : ∀ j : Nibble, set.getLsbD j.toNat = true → j = k) :
    selectKey choice set = k :=
  hu _ (selectKey_mem choice (fun h => by rw [h] at hk; simp at hk))

/-- The completed wait, field by field (R190). -/
theorem State.completeWait_eq (s : State) : s.completeWait =
    { s with
      v := (s.writeV s.wx ((selectKey (Config.freeChoice s.freeCtr) s.newKeys).setWidth 8)).v
      pc := s.pc + 1
      phase := .ready
      freeCtr := s.freeCtr + 1 } := rfl

/-- The key operand inside the alphabet (R185). -/
theorem State.keyOperand_of_le (s : State) {x : Nibble} (h : (s.readV x).toNat ≤ 15) :
    s.keyOperand x = .ok ((s.readV x).setWidth 4) := by
  simp [State.keyOperand, Nat.not_lt.mpr h]

/-- The key operand outside the alphabet (R185). -/
theorem State.keyOperand_of_gt (s : State) {x : Nibble} (h : 15 < (s.readV x).toNat) :
    s.keyOperand x = .error (.unknownKeyFault (s.readV x)) := by
  simp [State.keyOperand, h]

end Sys2Proof.Machine
end

