-- ==== Sys2Proof/Laws/Exec.lean ====
section
/-! SUPPORT. What each arm of exec answers: one equation per instruction, with its guard where it has
one, so that no later proof unfolds a meaning. -/

namespace Sys2Proof.Machine

section
variable (s : State) (x y n : Nibble) (byte : Byte) (addr : Addr)

theorem exec_sys : exec (.sys addr) s = .next s.advance := rfl
theorem exec_cls : exec .cls s = .next (s.setFb (Vector.replicate 32 0)).advance := rfl
theorem exec_jp : exec (.jp addr) s = .next (s.setPc (zextAddr addr)) := rfl
theorem exec_jpV0 :
    exec (.jpV0 addr) s = .next (s.setPc (zextAddr addr + zextByte (s.readV 0))) := rfl
theorem exec_seByte : exec (.seByte x byte) s = .next (s.skipIf (s.readV x == byte)) := rfl
theorem exec_sneByte : exec (.sneByte x byte) s = .next (s.skipIf (s.readV x != byte)) := rfl
theorem exec_seReg : exec (.seReg x y) s = .next (s.skipIf (s.readV x == s.readV y)) := rfl
theorem exec_sneReg : exec (.sneReg x y) s = .next (s.skipIf (s.readV x != s.readV y)) := rfl
theorem exec_ldByte : exec (.ldByte x byte) s = .next (s.writeV x byte).advance := rfl
theorem exec_addByte :
    exec (.addByte x byte) s = .next (s.writeV x (s.readV x + byte)).advance := rfl
theorem exec_ldReg : exec (.ldReg x y) s = .next (s.writeV x (s.readV y)).advance := rfl
theorem exec_orReg :
    exec (.orReg x y) s = .next (s.writeV x (s.readV x ||| s.readV y)).advance := rfl
theorem exec_andReg :
    exec (.andReg x y) s = .next (s.writeV x (s.readV x &&& s.readV y)).advance := rfl
theorem exec_xorReg :
    exec (.xorReg x y) s = .next (s.writeV x (s.readV x ^^^ s.readV y)).advance := rfl
theorem exec_addReg : exec (.addReg x y) s = .next (s.writeFlagResult x
    (carryFlag (s.readV x) (s.readV y)) (s.readV x + s.readV y)).advance := rfl
theorem exec_subReg : exec (.subReg x y) s = .next (s.writeFlagResult x
    (noBorrowFlag config.subEqFlag (s.readV x) (s.readV y))
    (magnitude (s.readV x) (s.readV y))).advance := rfl
theorem exec_shr : exec (.shr x) s = .next (s.writeFlagResult x (lowBitFlag (s.readV x))
    (s.readV x >>> 1)).advance := rfl
theorem exec_subnReg : exec (.subnReg x y) s = .next (s.writeFlagResult x
    (noBorrowFlag config.subEqFlag (s.readV y) (s.readV x))
    (magnitude (s.readV y) (s.readV x))).advance := rfl
theorem exec_shl : exec (.shl x) s = .next (s.writeFlagResult x (highBitFlag (s.readV x))
    (s.readV x <<< 1)).advance := rfl
theorem exec_rnd : exec (.rnd x byte) s =
    .next (s.takeDraw.2.writeV x (s.takeDraw.1 &&& byte)).advance := rfl
theorem exec_ldI : exec (.ldI addr) s = .next (s.setI (zextAddr addr)).advance := rfl
theorem exec_addI : exec (.addI x) s = .next (s.setI (s.i + zextByte (s.readV x))).advance := rfl
theorem exec_ldF :
    exec (.ldF x) s = .next (s.setI (digitAddress (s.digitOperand x))).advance := rfl
theorem exec_ldVxDt : exec (.ldVxDt x) s = .next (s.writeV x s.dt).advance := rfl
theorem exec_ldDtVx : exec (.ldDtVx x) s = .next (s.setDt (s.readV x)).advance := rfl
theorem exec_ldStVx : exec (.ldStVx x) s = .next (s.setSt (s.readV x)).advance := rfl
theorem exec_ldVxK :
    exec (.ldVxK x) s = .next { s with kb := s.kp, wx := x, phase := .waitKey } := rfl
theorem exec_drw : exec (.drw x y n) s = execDrw x y n s := rfl

theorem exec_ret_empty (h : s.sp = 0) : exec .ret s = .fault (.stackFault .underflow) := by
  simp [exec, execRet, raise, h]

theorem exec_ret (h : s.sp ≠ 0) :
    exec .ret s = .next ((s.setPc (s.stackEntry s.sp + config.retPcOffset)).pop) := by
  simp only [exec, execRet, if_neg h]

theorem exec_call_full (h : s.sp = 15) :
    exec (.call addr) s = .fault (.stackFault .overflow) := by
  simp [exec, execCall, raise, h]

theorem exec_call (h : s.sp ≠ 15) :
    exec (.call addr) s = .next ((s.push s.pc).setPc (zextAddr addr)) := by
  simp only [exec, execCall, if_neg h]

theorem exec_skp_unknown (h : 15 < (s.readV x).toNat) :
    exec (.skp x) s = .fault (.unknownKeyFault (s.readV x)) := by
  simp only [exec, execSkp, s.keyOperand_of_gt h, raise]

theorem exec_skp (h : (s.readV x).toNat ≤ 15) :
    exec (.skp x) s = .next (s.skipIf (s.keyPressed ((s.readV x).setWidth 4))) := by
  simp only [exec, execSkp, s.keyOperand_of_le h]

theorem exec_sknp_unknown (h : 15 < (s.readV x).toNat) :
    exec (.sknp x) s = .fault (.unknownKeyFault (s.readV x)) := by
  simp only [exec, execSknp, s.keyOperand_of_gt h, raise]

theorem exec_sknp (h : (s.readV x).toNat ≤ 15) :
    exec (.sknp x) s = .next (s.skipIf (!s.keyPressed ((s.readV x).setWidth 4))) := by
  simp only [exec, execSknp, s.keyOperand_of_le h]

end

/-- A byte at most 15 names the key of its own number. -/
theorem setWidth_four_toNat {b : Byte} (h : b.toNat ≤ 15) :
    (b.setWidth 4 : Nibble).toNat = b.toNat := by
  rw [BitVec.toNat_setWidth]
  omega

/-- What a `RND` step draws: the next queued byte, else the next free value (R145; log 6). -/
theorem State.takeDraw_queued (s : State) {b : Byte} {rest : List Byte} (h : s.draws = b :: rest) :
    s.takeDraw = (b, { s with draws := rest }) := by
  simp only [State.takeDraw, h]

theorem State.takeDraw_free (s : State) (h : s.draws = []) :
    s.takeDraw = (Config.freeByte s.freeCtr, s.useFree 1) := by
  simp only [State.takeDraw, h]

/-- A `RND` step consumes a queued draw or counts a free value, and touches nothing else. -/
theorem State.takeDraw_state (s : State) :
    ∃ draws ctr, s.takeDraw.2 = { s with draws := draws, freeCtr := ctr } := by
  cases h : s.draws with
  | nil => rw [s.takeDraw_free h]; exact ⟨s.draws, _, rfl⟩
  | cons b rest => rw [s.takeDraw_queued h]; exact ⟨rest, s.freeCtr, rfl⟩

/-! ### What the five arms with a guard can do, when they answer a next state -/

section
variable {s t : State} {x y n : Nibble} {addr : Addr}

theorem exec_ret_cases (h : exec .ret s = .next t) :
    s.sp ≠ 0 ∧ t = (s.setPc (s.stackEntry s.sp + config.retPcOffset)).pop := by
  by_cases hs : s.sp = 0
  · rw [exec_ret_empty s hs] at h; cases h
  · rw [exec_ret s hs] at h; cases h; exact ⟨hs, rfl⟩

theorem exec_call_cases (h : exec (.call addr) s = .next t) :
    s.sp ≠ 15 ∧ t = (s.push s.pc).setPc (zextAddr addr) := by
  by_cases hs : s.sp = 15
  · rw [exec_call_full s addr hs] at h; cases h
  · rw [exec_call s addr hs] at h; cases h; exact ⟨hs, rfl⟩

theorem exec_skp_cases (h : exec (.skp x) s = .next t) :
    (s.readV x).toNat ≤ 15 ∧ t = s.skipIf (s.keyPressed ((s.readV x).setWidth 4)) := by
  rcases Nat.lt_or_ge 15 (s.readV x).toNat with hx | hx
  · rw [exec_skp_unknown s x hx] at h; cases h
  · rw [exec_skp s x hx] at h; cases h; exact ⟨hx, rfl⟩

theorem exec_sknp_cases (h : exec (.sknp x) s = .next t) :
    (s.readV x).toNat ≤ 15 ∧ t = s.skipIf (!s.keyPressed ((s.readV x).setWidth 4)) := by
  rcases Nat.lt_or_ge 15 (s.readV x).toNat with hx | hx
  · rw [exec_sknp_unknown s x hx] at h; cases h
  · rw [exec_sknp s x hx] at h; cases h; exact ⟨hx, rfl⟩

/-- What a `DRW` can change: the display, `VF`, the count of free values, the program counter. -/
theorem exec_drw_cases (h : exec (.drw x y n) s = .next t) :
    ∃ fb flag k, t = (((s.setFb fb).writeV vf flag).useFree k).advance := by
  rcases execDrw_cases x y n s with ⟨f, -, e⟩ | ⟨strip, -, -, -, e⟩ | ⟨strip, -, -, e⟩
  · rw [exec_drw, e] at h; cases h
  · rw [exec_drw, e] at h; cases h; exact ⟨_, _, _, rfl⟩
  · rw [exec_drw, e] at h; cases h; exact ⟨_, _, 0, rfl⟩

end

/-! ### The agents' order -/

/-- No instruction touches the schedule: the order in which the agents move is not the block's. -/
theorem exec_schedule {i : Instr} {s t : State} (h : exec i s = .next t) :
    t.schedule = s.schedule := by
  cases i with
  | ret => obtain ⟨-, rfl⟩ := exec_ret_cases h; rfl
  | call addr => obtain ⟨-, rfl⟩ := exec_call_cases h; rfl
  | skp x => obtain ⟨-, rfl⟩ := exec_skp_cases h; exact s.skipIf_schedule _
  | sknp x => obtain ⟨-, rfl⟩ := exec_sknp_cases h; exact s.skipIf_schedule _
  | drw x y n => obtain ⟨_, _, _, rfl⟩ := exec_drw_cases h; rfl
  | rnd x byte =>
    cases h
    obtain ⟨_, _, hd⟩ := s.takeDraw_state
    simp [hd]
  | seByte x byte | sneByte x byte => cases h; exact s.skipIf_schedule _
  | seReg x y | sneReg x y => cases h; exact s.skipIf_schedule _
  | _ => cases h; rfl

end Sys2Proof.Machine
end

