-- ==== Sys2Proof/Laws/PerInstr.lean ====
section
/-! SUPPORT. The per-instruction family `EncodingCarriesItsRow`: one lemma per constructor of Instr. -/

namespace Sys2Proof.Laws.EncodingCarriesItsRow

/-- The encoder's word of the instruction matches the row of the opcode table with its mnemonic
(30_encoding.md R74, R75). -/
def Statement (i : Instr) : Prop :=
  ∃ r ∈ opcodeTable, r.mnemonic = i.mnemonic ∧ r.matchesWord (encode i) = true

/-- A row that fixes only the major opcode. -/
theorem of_op (i : Instr) (op : Nibble)
    (hm : OpcodeRow.mk i.mnemonic 0xF000#16 (wordXY op 0 0 0) ∈ opcodeTable)
    (ho : fieldOp (encode i) = op) : Statement i :=
  ⟨_, hm, rfl, (matchesWord_op _ _ _ rfl).mpr ho⟩

/-- A row that fixes the major opcode and the low nibble. -/
theorem of_op_n (i : Instr) (op n : Nibble)
    (hm : OpcodeRow.mk i.mnemonic 0xF00F#16 (wordXY op 0 0 n) ∈ opcodeTable)
    (ho : fieldOp (encode i) = op) (hn : fieldN (encode i) = n) : Statement i :=
  ⟨_, hm, rfl, (matchesWord_op_n _ _ _ rfl).mpr ⟨ho, hn⟩⟩

/-- A row that fixes the major opcode and the low byte. -/
theorem of_op_kk (i : Instr) (op y n : Nibble)
    (hm : OpcodeRow.mk i.mnemonic 0xF0FF#16 (wordXY op 0 y n) ∈ opcodeTable)
    (ho : fieldOp (encode i) = op) (hk : fieldKk (encode i) = y ++ n) : Statement i :=
  ⟨_, hm, rfl, (matchesWord_op_kk _ _ _ rfl).mpr ⟨ho, hk⟩⟩

theorem sys (addr : Addr) : Statement (.sys addr) :=
  of_op _ 0x0 (by simp only [Instr.mnemonic]; decide) (fieldOp_wordA ..)

theorem cls : Statement .cls := ⟨⟨"CLS", 0xFFFF, 0x00E0⟩, by decide, rfl, by decide⟩

theorem ret : Statement .ret := ⟨⟨"RET", 0xFFFF, 0x00EE⟩, by decide, rfl, by decide⟩

theorem jp (addr : Addr) : Statement (.jp addr) :=
  of_op _ 0x1 (by simp only [Instr.mnemonic]; decide) (fieldOp_wordA ..)

theorem call (addr : Addr) : Statement (.call addr) :=
  of_op _ 0x2 (by simp only [Instr.mnemonic]; decide) (fieldOp_wordA ..)

theorem seByte (x : Nibble) (byte : Byte) : Statement (.seByte x byte) :=
  of_op _ 0x3 (by simp only [Instr.mnemonic]; decide) (fieldOp_wordXK ..)

theorem sneByte (x : Nibble) (byte : Byte) : Statement (.sneByte x byte) :=
  of_op _ 0x4 (by simp only [Instr.mnemonic]; decide) (fieldOp_wordXK ..)

theorem seReg (x y : Nibble) : Statement (.seReg x y) :=
  of_op_n _ 0x5 0x0 (by simp only [Instr.mnemonic]; decide) (fieldOp_wordXY ..) (fieldN_wordXY ..)

theorem sneReg (x y : Nibble) : Statement (.sneReg x y) :=
  of_op_n _ 0x9 0x0 (by simp only [Instr.mnemonic]; decide) (fieldOp_wordXY ..) (fieldN_wordXY ..)

theorem ldByte (x : Nibble) (byte : Byte) : Statement (.ldByte x byte) :=
  of_op _ 0x6 (by simp only [Instr.mnemonic]; decide) (fieldOp_wordXK ..)

theorem addByte (x : Nibble) (byte : Byte) : Statement (.addByte x byte) :=
  of_op _ 0x7 (by simp only [Instr.mnemonic]; decide) (fieldOp_wordXK ..)

theorem ldReg (x y : Nibble) : Statement (.ldReg x y) :=
  of_op_n _ 0x8 0x0 (by simp only [Instr.mnemonic]; decide) (fieldOp_wordXY ..) (fieldN_wordXY ..)

theorem orReg (x y : Nibble) : Statement (.orReg x y) :=
  of_op_n _ 0x8 0x1 (by simp only [Instr.mnemonic]; decide) (fieldOp_wordXY ..) (fieldN_wordXY ..)

theorem andReg (x y : Nibble) : Statement (.andReg x y) :=
  of_op_n _ 0x8 0x2 (by simp only [Instr.mnemonic]; decide) (fieldOp_wordXY ..) (fieldN_wordXY ..)

theorem xorReg (x y : Nibble) : Statement (.xorReg x y) :=
  of_op_n _ 0x8 0x3 (by simp only [Instr.mnemonic]; decide) (fieldOp_wordXY ..) (fieldN_wordXY ..)

theorem addReg (x y : Nibble) : Statement (.addReg x y) :=
  of_op_n _ 0x8 0x4 (by simp only [Instr.mnemonic]; decide) (fieldOp_wordXY ..) (fieldN_wordXY ..)

theorem subReg (x y : Nibble) : Statement (.subReg x y) :=
  of_op_n _ 0x8 0x5 (by simp only [Instr.mnemonic]; decide) (fieldOp_wordXY ..) (fieldN_wordXY ..)

theorem shr (x : Nibble) : Statement (.shr x) :=
  of_op_n _ 0x8 0x6 (by simp only [Instr.mnemonic]; decide) (fieldOp_wordXY ..) (fieldN_wordXY ..)

theorem subnReg (x y : Nibble) : Statement (.subnReg x y) :=
  of_op_n _ 0x8 0x7 (by simp only [Instr.mnemonic]; decide) (fieldOp_wordXY ..) (fieldN_wordXY ..)

theorem shl (x : Nibble) : Statement (.shl x) :=
  of_op_n _ 0x8 0xE (by simp only [Instr.mnemonic]; decide) (fieldOp_wordXY ..) (fieldN_wordXY ..)

theorem ldI (addr : Addr) : Statement (.ldI addr) :=
  of_op _ 0xA (by simp only [Instr.mnemonic]; decide) (fieldOp_wordA ..)

theorem jpV0 (addr : Addr) : Statement (.jpV0 addr) :=
  of_op _ 0xB (by simp only [Instr.mnemonic]; decide) (fieldOp_wordA ..)

theorem rnd (x : Nibble) (byte : Byte) : Statement (.rnd x byte) :=
  of_op _ 0xC (by simp only [Instr.mnemonic]; decide) (fieldOp_wordXK ..)

theorem drw (x y n : Nibble) : Statement (.drw x y n) :=
  of_op _ 0xD (by simp only [Instr.mnemonic]; decide) (fieldOp_wordXY ..)

theorem skp (x : Nibble) : Statement (.skp x) :=
  of_op_kk _ 0xE 0x9 0xE (by simp only [Instr.mnemonic]; decide) (fieldOp_wordXK ..) (fieldKk_wordXK ..)

theorem sknp (x : Nibble) : Statement (.sknp x) :=
  of_op_kk _ 0xE 0xA 0x1 (by simp only [Instr.mnemonic]; decide) (fieldOp_wordXK ..) (fieldKk_wordXK ..)

theorem ldVxDt (x : Nibble) : Statement (.ldVxDt x) :=
  of_op_kk _ 0xF 0x0 0x7 (by simp only [Instr.mnemonic]; decide) (fieldOp_wordXK ..) (fieldKk_wordXK ..)

theorem ldVxK (x : Nibble) : Statement (.ldVxK x) :=
  of_op_kk _ 0xF 0x0 0xA (by simp only [Instr.mnemonic]; decide) (fieldOp_wordXK ..) (fieldKk_wordXK ..)

theorem ldDtVx (x : Nibble) : Statement (.ldDtVx x) :=
  of_op_kk _ 0xF 0x1 0x5 (by simp only [Instr.mnemonic]; decide) (fieldOp_wordXK ..) (fieldKk_wordXK ..)

theorem ldStVx (x : Nibble) : Statement (.ldStVx x) :=
  of_op_kk _ 0xF 0x1 0x8 (by simp only [Instr.mnemonic]; decide) (fieldOp_wordXK ..) (fieldKk_wordXK ..)

theorem addI (x : Nibble) : Statement (.addI x) :=
  of_op_kk _ 0xF 0x1 0xE (by simp only [Instr.mnemonic]; decide) (fieldOp_wordXK ..) (fieldKk_wordXK ..)

theorem ldF (x : Nibble) : Statement (.ldF x) :=
  of_op_kk _ 0xF 0x2 0x9 (by simp only [Instr.mnemonic]; decide) (fieldOp_wordXK ..) (fieldKk_wordXK ..)

end Sys2Proof.Laws.EncodingCarriesItsRow
end

