-- ==== Sys2Proof/Laws/Step.lean ====
section
/-! SUPPORT. What a step can do, said once: whose turn it is, and the cases of the engine's turn. -/

namespace Sys2Proof.Machine

theorem step_idleSchedule {s : State} (h : s.schedule = []) : step s = engineTurn s := by
  simp only [step, turn, h]

theorem step_scheduled {s : State} {a : Action} {rest : List Action} (h : s.schedule = a :: rest) :
    step s = act a { s with schedule := rest } := by
  simp only [step, turn, h]

theorem execWord_instr {w : Word} {i : Instr} (h : decode w = .instr i) (s : State) :
    execWord w s = exec i (s.accept w) := by
  simp only [execWord, h]

theorem execWord_undef {w u : Word} (h : decode w = .undef u) (s : State) :
    execWord w s = .next (s.accept w).advance := by
  simp only [execWord, h, execUndef_eq]

/-- If executing a word answers a next state, it was a no-op or its instruction did. -/
theorem execWord_cases {w : Word} {s t : State} (h : execWord w s = .next t) :
    (∃ u, decode w = .undef u ∧ t = (s.accept w).advance) ∨
    ∃ i, decode w = .instr i ∧ exec i (s.accept w) = .next t := by
  cases hd : decode w with
  | instr i =>
    rw [execWord_instr hd] at h
    exact .inr ⟨i, rfl, h⟩
  | undef u =>
    rw [execWord_undef hd] at h
    cases h
    exact .inl ⟨u, rfl, rfl⟩

/-- A word the driver presents is executed in `READY` (R234), and not accepted in `WAITKEY`
(log 23). -/
theorem presentWord_ready {s : State} (hp : s.phase = .ready) (w : Word) :
    presentWord w s = execWord w s := by
  simp only [presentWord, hp]

theorem presentWord_waiting {s : State} (hp : s.phase = .waitKey) (w : Word) :
    presentWord w s = .next s := by
  simp only [presentWord, hp]

theorem presentWord_cases {w : Word} {s t : State} (h : presentWord w s = .next t) :
    (s.phase = .ready ∧ execWord w s = .next t) ∨ (s.phase = .waitKey ∧ t = s) := by
  cases hp : s.phase with
  | ready => rw [presentWord_ready hp] at h; exact .inl ⟨rfl, h⟩
  | waitKey => rw [presentWord_waiting hp] at h; cases h; exact .inr ⟨rfl, rfl⟩

/-- The engine's turn in each case (log 3, log 4 for the two in which nothing happens). -/
theorem engineTurn_ready {s : State} (hp : s.phase = .ready) {w : Word} (hf : s.fetch = some w) :
    engineTurn s = execWord w s := by
  simp only [engineTurn, hp, hf]

theorem engineTurn_empty {s : State} (hp : s.phase = .ready) (hf : s.fetch = none) :
    engineTurn s = .next s := by
  simp only [engineTurn, hp, hf]

theorem engineTurn_holds {s : State} (hp : s.phase = .waitKey) (hn : s.newKeys = 0) :
    engineTurn s = .next s := by
  simp only [engineTurn, hp, hn, if_true]

theorem engineTurn_completes {s : State} (hp : s.phase = .waitKey) (hn : s.newKeys ≠ 0) :
    engineTurn s = .next s.completeWait := by
  simp only [engineTurn, hp, if_neg hn]

/-- If the engine's turn answers a next state, then one of these happened. -/
theorem engineTurn_cases {s t : State} (h : engineTurn s = .next t) :
    (s.phase = .ready ∧ s.fetch = none ∧ t = s) ∨
    (∃ w, s.phase = .ready ∧ s.fetch = some w ∧ execWord w s = .next t) ∨
    (s.phase = .waitKey ∧ s.newKeys = 0 ∧ t = s) ∨
    (s.phase = .waitKey ∧ s.newKeys ≠ 0 ∧ t = s.completeWait) := by
  cases hp : s.phase with
  | ready =>
    cases hf : s.fetch with
    | none =>
      rw [engineTurn_empty hp hf] at h
      cases h
      exact .inl ⟨rfl, rfl, rfl⟩
    | some w =>
      rw [engineTurn_ready hp hf] at h
      exact .inr (.inl ⟨w, rfl, rfl, h⟩)
  | waitKey =>
    by_cases hn : s.newKeys = 0
    · rw [engineTurn_holds hp hn] at h
      cases h
      exact .inr (.inr (.inl ⟨rfl, hn, rfl⟩))
    · rw [engineTurn_completes hp hn] at h
      cases h
      exact .inr (.inr (.inr ⟨rfl, hn, rfl⟩))

/-- If a step answers a next state, then the engine moved, or one other agent did. -/
theorem step_cases {s t : State} (h : step s = .next t) :
    (s.schedule = [] ∧ engineTurn s = .next t) ∨
    (∃ rest, s.schedule = .engine :: rest ∧ engineTurn { s with schedule := rest } = .next t) ∨
    (∃ w rest, s.schedule = .present w :: rest ∧
      presentWord w { s with schedule := rest } = .next t) ∨
    (∃ rest, s.schedule = .tick :: rest ∧ t = { s with schedule := rest }) ∨
    (∃ k rest, s.schedule = .setPressed k :: rest ∧
      t = State.pressKey { s with schedule := rest } k) ∨
    (∃ k rest, s.schedule = .setUnpressed k :: rest ∧
      t = State.releaseKey { s with schedule := rest } k) ∨
    (∃ rest, s.schedule = .snapshot :: rest ∧
      t = State.takeSnapshot { s with schedule := rest }) ∨
    (∃ image rest, s.schedule = .reset image :: rest ∧
      t = State.resetBlock { s with schedule := rest } image) := by
  cases hs : s.schedule with
  | nil => rw [step_idleSchedule hs] at h; exact .inl ⟨rfl, h⟩
  | cons a rest =>
    rw [step_scheduled hs] at h
    refine .inr ?_
    cases a with
    | engine => exact .inl ⟨rest, rfl, h⟩
    | present w => exact .inr (.inl ⟨w, rest, rfl, h⟩)
    | tick => cases h; exact .inr (.inr (.inl ⟨rest, rfl, rfl⟩))
    | setPressed k => cases h; exact .inr (.inr (.inr (.inl ⟨k, rest, rfl, rfl⟩)))
    | setUnpressed k => cases h; exact .inr (.inr (.inr (.inr (.inl ⟨k, rest, rfl, rfl⟩))))
    | snapshot => cases h; exact .inr (.inr (.inr (.inr (.inr (.inl ⟨rest, rfl, rfl⟩)))))
    | reset image =>
      cases h; exact .inr (.inr (.inr (.inr (.inr (.inr ⟨image, rest, rfl, rfl⟩)))))

/-! ### The schedule -/

theorem execWord_schedule {w : Word} {s t : State} (h : execWord w s = .next t) :
    t.schedule = s.schedule := by
  obtain ⟨u, -, rfl⟩ | ⟨i, -, h⟩ := execWord_cases h
  · rfl
  · exact (exec_schedule h).trans (s.accept_schedule w)

theorem engineTurn_schedule {s t : State} (h : engineTurn s = .next t) :
    t.schedule = s.schedule := by
  obtain ⟨-, -, rfl⟩ | ⟨w, -, -, h⟩ | ⟨-, -, rfl⟩ | ⟨-, -, rfl⟩ := engineTurn_cases h
  · rfl
  · exact execWord_schedule h
  · rfl
  · rfl

/-- A step takes the first action off the schedule and touches no other. -/
theorem step_schedule {s t : State} (h : step s = .next t) : t.schedule = s.schedule.tail := by
  obtain ⟨hs, h⟩ | ⟨rest, hs, h⟩ | ⟨w, rest, hs, h⟩ | ⟨rest, hs, rfl⟩ | ⟨k, rest, hs, rfl⟩ |
    ⟨k, rest, hs, rfl⟩ | ⟨rest, hs, rfl⟩ | ⟨image, rest, hs, rfl⟩ := step_cases h
  · rw [engineTurn_schedule h, hs]; rfl
  · rw [engineTurn_schedule h, hs]; rfl
  · rw [hs]
    obtain ⟨-, h⟩ | ⟨-, rfl⟩ := presentWord_cases h
    · exact execWord_schedule h
    · rfl
  all_goals rw [hs]; rfl

/-! ### Runs -/

theorem core_run_succ {s t : State} (k : Nat) (h : step s = .next t) :
    Sys2Proof.core.run (k + 1) s = Sys2Proof.core.run k t := by
  have h : Sys2Proof.core.step s = .next t := h
  simp only [Host.Core.run, h]

theorem core_run_fault {s : State} {f : Fault} (k : Nat) (h : step s = .fault f) :
    Sys2Proof.core.run (k + 1) s = .fault f := by
  have h : Sys2Proof.core.step s = .fault f := h
  simp only [Host.Core.run, h]

/-- A run of `j + k` steps is a run of `j` steps and then one of `k` steps. -/
theorem core_run_add {j : Nat} : ∀ {s u : State} (k : Nat), Sys2Proof.core.run j s = .next u →
    Sys2Proof.core.run (j + k) s = Sys2Proof.core.run k u := by
  induction j with
  | zero => intro s u k h; cases h; rw [Nat.zero_add]
  | succ j ih =>
    intro s u k h
    rw [Nat.succ_add]
    simp only [Host.Core.run] at h ⊢
    split at h
    · rename_i v hv; exact ih k h
    · cases h
    · cases h

/-- A run of `k` steps takes the first `k` actions off the schedule. -/
theorem core_run_schedule {k : Nat} : ∀ {s t : State}, Sys2Proof.core.run k s = .next t →
    t.schedule = s.schedule.drop k := by
  induction k with
  | zero => intro s t h; cases h; rfl
  | succ k ih =>
    intro s t h
    simp only [Host.Core.run] at h
    split at h
    · rename_i u hu
      rw [ih h, step_schedule hu, List.drop_tail]
    · cases h
    · cases h

/-! ### The driver's slots -/

theorem Program.wordAt_filter_ne (prog : Program) {p q : Word} (h : p ≠ q) :
    Program.wordAt (prog.filter fun c => c.1 != p) q = prog.wordAt q := by
  induction prog with
  | nil => rfl
  | cons c rest ih =>
    simp only [List.filter_cons, bne_iff_ne]
    by_cases hc : c.1 = p
    · rw [if_neg (by simpa using hc), ih]
      simp only [Program.wordAt, hc, if_neg h]
    · rw [if_pos (by simpa using hc)]
      simp only [Program.wordAt, ih]

/-- After placing a word in a slot, that slot holds it and the others hold what they held. -/
theorem Program.wordAt_setWord (prog : Program) (p q w : Word) :
    (prog.setWord p w).wordAt q = if p = q then some w else prog.wordAt q := by
  by_cases h : p = q
  · simp [Program.setWord, Program.wordAt, h]
  · simp only [Program.setWord, Program.wordAt, if_neg h, Program.wordAt_filter_ne prog h]

/-- Placing a word makes the very next step run it (log 2). -/
theorem step_placeWord (s : State) (w : Word) :
    step (s.placeWord w) =
      execWord w { s with prog := s.prog.setWord s.pc w, phase := .ready } := by
  have hf : State.fetch { s with prog := s.prog.setWord s.pc w, phase := .ready } = some w := by
    simp [State.fetch, Program.wordAt_setWord]
  rw [← engineTurn_ready rfl hf]
  cases hs : s.schedule with
  | nil =>
    rw [step_idleSchedule (by simp only [State.placeWord, hs])]
    congr 1
    simp only [State.placeWord, hs]
  | cons a rest =>
    rw [step_scheduled (a := .engine) (rest := a :: rest) (by simp only [State.placeWord, hs])]
    simp only [act, State.placeWord]

end Sys2Proof.Machine
end

