-- ==== Sys2Proof/Tests/Slice0.lean ====
section
/-! SUPPORT. Tests and witnesses. Expected results come from spec/95_test_vectors.md (the vector's id
stands in each docstring) or from the rule named there, never from the model. -/

namespace Sys2Proof.Tests

open Sys2Proof Sys2Proof.Machine

/-! ### Helpers -/

/-- What a word's execution leaves, seen through `f`; nothing if it does not answer a next state. -/
def after {α : Type} (w : Word) (s : State) (f : State → α) : Option α :=
  match execWord w s with
  | .next t => some (f t)
  | .fault _ => none
  | .refused _ => none

/-- The fault of a word's execution. -/
def faultOf (w : Word) (s : State) : Option Fault :=
  match execWord w s with
  | .next _ => none
  | .fault f => some f
  | .refused _ => none

/-- The reset state with `V[1]`, `V[2]` and `VF` set. -/
def regs (v1 v2 flag : Byte) : State :=
  ((State.reset.writeV 1 v1).writeV 2 v2).writeV vf flag

/-- `V[1]`, `V[2]`, `VF`, `PC`. -/
def see (s : State) : Byte × Byte × Byte × Word := (s.readV 1, s.readV 2, s.readV vf, s.pc)

/-- The reset state at slot `pc`. -/
def at_ (pc : Word) : State := State.reset.setPc pc

/-- The sprite of 2.5: `0xD8`, `0x64` at `0x300`, drawn at column `c`, row `r`, with `I = i`. -/
def sprite (c r : Byte) (i : Word) : State :=
  { ((State.reset.writeV 0 c).writeV 1 r).setI i with
    mem := Memory.ofImage [(0x300, 0xD8), (0x301, 0x64), (0xFFF, 0x81)] }

/-- `s` with display row `r` at `v`. -/
def withRow (s : State) (r : DisplayRow) (v : RowBits) : State := s.setFb (s.fb.set r v)

/-- Display rows `a` and `b`, `VF`, `PC`. -/
def seeRows (a b : DisplayRow) (s : State) : RowBits × RowBits × Byte × Word :=
  (s.fb[a], s.fb[b], s.readV vf, s.pc)

/-- `s` with a stack of depth `sp` whose top is `p`. -/
def withStack (s : State) (sp : StackPointer) (p : Word) : State :=
  { s with sp := sp, stk := s.stk.set sp.toNat p sp.toNat_lt }

/-- Waiting in `LD V5,K` at slot 0x30 with the given sets. -/
def waitingFor (kp kb : Word) : State :=
  { State.reset with pc := 0x30, kp := kp, kb := kb, phase := .waitKey, wx := 5,
                     prog := [(0x30, 0xF50A)], accepted := some (0x30, 0xF50A) }

/-! ### WellFormed: each check refuses an ill-formed term -/

theorem test_sys_cls_word_refused : (Instr.sys 0x0E0).wellFormed = false := by decide
theorem test_sys_ret_word_refused : (Instr.sys 0x0EE).wellFormed = false := by decide
theorem test_sys_accepted : (Instr.sys 0x0E1).wellFormed = true := by decide

/-! ### Decoding, one word per constructor (section 3.3 of the vectors) -/

theorem test_decode_flow :
    decode 0x0000 = .instr (.sys 0x000) ∧ decode 0x00E1 = .instr (.sys 0x0E1) ∧
    decode 0x00EF = .instr (.sys 0x0EF) ∧ decode 0x0FFF = .instr (.sys 0xFFF) ∧
    decode 0x00E0 = .instr .cls ∧ decode 0x00EE = .instr .ret ∧
    decode 0x1ABC = .instr (.jp 0xABC) ∧ decode 0x2ABC = .instr (.call 0xABC) ∧
    decode 0xBABC = .instr (.jpV0 0xABC) := by decide

theorem test_decode_skip :
    decode 0x3A12 = .instr (.seByte 0xA 0x12) ∧ decode 0x4A12 = .instr (.sneByte 0xA 0x12) ∧
    decode 0x5AB0 = .instr (.seReg 0xA 0xB) ∧ decode 0x9AB0 = .instr (.sneReg 0xA 0xB) := by decide

theorem test_decode_loadAlu :
    decode 0x6A12 = .instr (.ldByte 0xA 0x12) ∧ decode 0x7A12 = .instr (.addByte 0xA 0x12) ∧
    decode 0x8AB0 = .instr (.ldReg 0xA 0xB) ∧ decode 0x8AB1 = .instr (.orReg 0xA 0xB) ∧
    decode 0x8AB2 = .instr (.andReg 0xA 0xB) ∧ decode 0x8AB3 = .instr (.xorReg 0xA 0xB) ∧
    decode 0x8AB4 = .instr (.addReg 0xA 0xB) ∧ decode 0x8AB5 = .instr (.subReg 0xA 0xB) ∧
    decode 0x8AB6 = .instr (.shr 0xA) ∧ decode 0x8AB7 = .instr (.subnReg 0xA 0xB) ∧
    decode 0x8ABE = .instr (.shl 0xA) ∧ decode 0xCA12 = .instr (.rnd 0xA 0x12) := by decide

theorem test_decode_display_index_keys :
    decode 0xAABC = .instr (.ldI 0xABC) ∧ decode 0xDAB5 = .instr (.drw 0xA 0xB 5) ∧
    decode 0xDAB0 = .instr (.drw 0xA 0xB 0) ∧ decode 0xEA9E = .instr (.skp 0xA) ∧
    decode 0xEAA1 = .instr (.sknp 0xA) ∧ decode 0xFA07 = .instr (.ldVxDt 0xA) ∧
    decode 0xFA0A = .instr (.ldVxK 0xA) ∧ decode 0xFA15 = .instr (.ldDtVx 0xA) ∧
    decode 0xFA18 = .instr (.ldStVx 0xA) ∧ decode 0xFA1E = .instr (.addI 0xA) ∧
    decode 0xFA29 = .instr (.ldF 0xA) := by decide

theorem test_decode_undef :
    decode 0x5AB1 = .undef 0x5AB1 ∧ decode 0x8AB8 = .undef 0x8AB8 ∧ decode 0x8ABF = .undef 0x8ABF ∧
    decode 0x9ABF = .undef 0x9ABF ∧ decode 0xEA9F = .undef 0xEA9F ∧ decode 0xEA00 = .undef 0xEA00 ∧
    decode 0xFA33 = .undef 0xFA33 ∧ decode 0xFA55 = .undef 0xFA55 ∧ decode 0xFA65 = .undef 0xFA65 ∧
    decode 0xFA00 = .undef 0xFA00 ∧ decode 0xFFFF = .undef 0xFFFF := by decide

/-- R71, R72: the words of the encoder, by hand from the formats. -/
theorem test_encode :
    encode (.call 0x300) = 0x2300 ∧ encode (.seByte 3 0x2A) = 0x332A ∧
    encode (.subReg 1 2) = 0x8125 ∧ encode (.shl 0xF) = 0x8F0E ∧
    encode (.drw 0xF 1 1) = 0xDF11 ∧ encode (.ldVxK 7) = 0xF70A := by decide

theorem test_decodeTableWord :
    decodeTableWord 16 0x8AB5 = some (.subReg 0xA 0xB) ∧ decodeTableWord 16 0xFA55 = none := by decide

/-! ### Reset (section 3.2 of the vectors) -/

theorem test_reset_font :
    State.reset.mem.byteAt 0x000 = 0xF0 ∧ State.reset.mem.byteAt 0x004 = 0xF0 ∧
    State.reset.mem.byteAt 0x005 = 0x20 ∧ State.reset.mem.byteAt 0x032 = 0xF0 ∧
    State.reset.mem.byteAt 0x04B = 0xF0 ∧ State.reset.mem.byteAt 0x04F = 0x80 ∧
    State.reset.mem.byteAt 0x050 = 0x00 := by decide

/-- R56, R58: the font bytes win over the image. -/
theorem test_reset_image :
    let m := Memory.ofImage [(0x000, 0xAA), (0x300, 0xD8), (0x1000, 0x77)]
    m.byteAt 0x000 = 0xF0 ∧ m.byteAt 0x300 = 0xD8 ∧ m.wf = true ∧ m = [(0x300, 0xD8)] := by decide

/-- Equal memories are equal data: a write of what an unlisted address reads as lists nothing. -/
theorem test_memory_canonical :
    (Memory.write (Memory.write [] 0x300 0xD8) 0x300 0x00 = []) ∧
    (Memory.write (Memory.write [] 0x301 1) 0x300 2 = [(0x300, 2), (0x301, 1)]) := by decide

/-! ### Control flow -/

/-- T-F2: the program counter wraps. -/
theorem test_sys_wraps : after 0x0000 (at_ 0xFFFF) State.pc = some 0x0000 := by decide

/-- T-F3. -/
theorem test_ret : after 0x00EE (withStack (at_ 0x300) 2 0x0207)
    (fun t => (t.pc, t.sp, t.stackEntry 2)) = some (0x0207, 1, 0x0207) := by decide

/-- T-F4. -/
theorem test_ret_empty : faultOf 0x00EE (at_ 0x44) = some (.stackFault .underflow) := by decide

/-- T-F8. -/
theorem test_jp : after 0x1234 (at_ 0x234) State.pc = some 0x0234 := by decide

/-- T-F11. -/
theorem test_call : after 0x2456 { at_ 0x123 with sp := 14 }
    (fun t => (t.sp, t.stackEntry 15, t.stackEntry 14, t.pc)) = some (15, 0x0123, 0, 0x0456) := by decide

/-- T-F12. -/
theorem test_call_full :
    faultOf 0x2456 { at_ 0x123 with sp := 15 } = some (.stackFault .overflow) := by decide

/-- T-F15, T-F16: not reduced to 12 bits; the register is `V0`. -/
theorem test_jpV0 : after 0xBFFF (State.reset.writeV 0 0xFF) State.pc = some 0x10FE ∧
    after 0xB123 (State.reset.writeV 1 9) State.pc = some 0x0123 := by decide

/-- T-F19: `5xyn` with `n` not 0 does not skip. -/
theorem test_undef : after 0x5121 ((regs 1 1 0).setPc 0x20) see = some (1, 1, 0, 0x21) := by decide

/-! ### Skips -/

/-- T-S1, T-S2. -/
theorem test_seByte : after 0x332A ((at_ 0x100).writeV 3 0x2A) State.pc = some 0x0102 ∧
    after 0x332A ((at_ 0x100).writeV 3 0x2B) State.pc = some 0x0101 := by decide

/-- T-S3, T-S14. -/
theorem test_sneByte : after 0x432A ((at_ 0x100).writeV 3 0x2A) State.pc = some 0x0101 ∧
    after 0x4000 (at_ 0xFFFF) State.pc = some 0x0000 := by decide

/-- T-S5, T-S6. -/
theorem test_seReg : after 0x5120 ((regs 7 7 0).setPc 0x40) State.pc = some 0x0042 ∧
    after 0x5120 ((regs 7 8 0).setPc 0x40) State.pc = some 0x0041 := by decide

/-- T-S7, T-S8. -/
theorem test_sneReg : after 0x9120 ((regs 7 8 0).setPc 0x40) State.pc = some 0x0042 ∧
    after 0x9120 ((regs 7 7 0).setPc 0x40) State.pc = some 0x0041 := by decide

/-! ### Loads, arithmetic, logic, shifts, random -/

/-- T-A1. -/
theorem test_ldByte :
    after 0x6A2F State.reset (fun t => (t.readV 0xA, t.pc)) = some (0x2F, 1) := by decide

/-- T-A4: wraps, and `VF` stays 1. -/
theorem test_addByte : after 0x7201 (regs 0 0xFF 1) see = some (0, 0x00, 1, 1) := by decide

/-- As T-A7. -/
theorem test_ldReg : after 0x8120 (regs 5 0x99 0) see = some (0x99, 0x99, 0, 1) := by decide

/-- T-A8. -/
theorem test_orReg : after 0x8121 (regs 0xF0 0x0F 1) see = some (0xFF, 0x0F, 1, 1) := by decide

/-- T-A9. -/
theorem test_andReg : after 0x8122 (regs 0xF3 0x3F 0) see = some (0x33, 0x3F, 0, 1) := by decide

/-- T-A10. -/
theorem test_xorReg : after 0x8123 (regs 0xF3 0x3F 0) see = some (0xCC, 0x3F, 0, 1) := by decide

/-- T-A12 (the source's own example), T-A15. -/
theorem test_addReg : after 0x8124 (regs 0x80 0x81 0) see = some (0x01, 0x81, 1, 1) ∧
    after 0x8124 (regs 0x7F 0x80 1) see = some (0xFF, 0x80, 0, 1) := by decide

/-- T-A17, T-A18: `x = 15` and `y = 15`. -/
theorem test_addReg_vf : after 0x8F24 (regs 0 0x90 0x90) see = some (0, 0x90, 0x20, 1) ∧
    after 0x81F4 (regs 0x10 0 0xF5) see = some (0x05, 0, 1, 1) := by decide

/-- T-A19, T-A20 (the source's own examples). -/
theorem test_subReg : after 0x8125 (regs 3 2 0) see = some (1, 2, 1, 1) ∧
    after 0x8125 (regs 2 3 1) see = some (1, 3, 0, 1) := by decide

/-- T-A21, T-A26: equal operands, and `x = 15`. -/
theorem test_subReg_corners : after 0x8125 (regs 7 7 0) see = some (0, 7, 1, 1) ∧
    after 0x8F25 (regs 0 4 9) see = some (0, 4, 5, 1) := by decide

/-- T-A35, T-A36; T-A22 and T-A38: the flag under both values of `SUB_EQ_FLAG`. -/
theorem test_subnReg : (noBorrowFlag 0 7 7 = 0 ∧ noBorrowFlag 1 7 7 = 1) ∧ after 0x8127 (regs 3 2 1) see = some (1, 2, 0, 1) ∧
    after 0x8127 (regs 2 3 0) see = some (1, 3, 1, 1) := by decide

/-- T-A31 (with `V1`), and T-A32: the `y` field is ignored. -/
theorem test_shr : after 0x8106 (regs 0xFF 0 0) see = some (0x7F, 0, 1, 1) ∧
    after 0x8126 (regs 0x05 0xF0 0) see = some (0x02, 0xF0, 1, 1) := by decide

/-- T-A39, T-A42. -/
theorem test_shl : after 0x810E (regs 0x40 0 0) see = some (0x80, 0, 0, 1) ∧
    after 0x810E (regs 0xFF 0 0) see = some (0xFE, 0, 1, 1) := by decide

/-- T-A33, T-A44: `x = 15`. -/
theorem test_shift_vf : after 0x8F06 (regs 0 0 0x07) see = some (0, 0, 0x03, 1) ∧
    after 0x8F0E (regs 0 0 0x81) see = some (0, 0, 0x02, 1) := by decide

/-- T-A45. -/
theorem test_rnd : after 0xC30F { State.reset with draws := [0xA7, 0x11] }
    (fun t => (t.readV 3, t.pc, t.draws)) = some (0x07, 1, [0x11]) := by decide

/-! ### Index register and timers -/

/-- T-I1. -/
theorem test_ldI :
    after 0xA300 (State.reset.setI 0xFFFF) (fun t => (t.i, t.pc)) = some (0x300, 1) := by decide

/-- T-I3, T-I4. -/
theorem test_addI :
    after 0xF21E ((regs 0 1 0).setI 0xFFFF) (fun t => (t.i, see t)) = some (0, 0, 1, 0, 1) ∧
    after 0xF21E ((regs 0 1 0).setI 0x0FFF) State.i = some 0x1000 := by decide

/-- T-I7, T-I8: the low nibble only. -/
theorem test_ldF : after 0xF429 (State.reset.writeV 4 0x1A) State.i = some 0x32 ∧
    after 0xF429 (State.reset.writeV 4 0xFF) State.i = some 0x4B := by decide

/-- T-I10. -/
theorem test_ldVxDt : after 0xF507 (State.reset.setDt 0x3C)
    (fun t => (t.readV 5, t.dt, t.pc)) = some (0x3C, 0x3C, 1) := by decide

/-- T-I11. -/
theorem test_ldDtVx : after 0xF515 (State.reset.writeV 5 0x3C)
    (fun t => (t.dt, t.st, t.pc)) = some (0x3C, 0, 1) := by decide

/-- T-I12. -/
theorem test_ldStVx : after 0xF618 (State.reset.writeV 6 0x10)
    (fun t => (t.st, t.dt, t.pc)) = some (0x10, 0, 1) := by decide

/-! ### Display -/

/-- T-D1. -/
theorem test_cls : after 0x00E0 (withRow (withRow (regs 0 0 1) 0 0xFFFFFFFFFFFFFFFF) 31 1)
    (fun t => (t.fb, t.readV vf, t.pc)) = some (Vector.replicate 32 0, 1, 1) := by decide

/-- T-D2 (the source's own example), T-D6, T-D5, T-D22: no collision, one pixel turned off, the last
column and row, `VF` as the column. -/
theorem test_drw :
    after 0xD012 (sprite 4 5 0x300) (seeRows 5 6) =
      some (0x0D80000000000000, 0x0640000000000000, 0, 1) ∧
    after 0xD012 (withRow (sprite 4 5 0x300) 5 0x0080000000000000) (seeRows 5 6) =
      some (0x0D00000000000000, 0x0640000000000000, 1, 1) ∧
    after 0xD011 (sprite 0x38 0x1F 0x300) (seeRows 31 30) = some (0xD8, 0, 0, 1) ∧
    after 0xDF11 ((sprite 0 2 0x300).writeV vf 8) (seeRows 2 3) =
      some (0x00D8000000000000, 0, 0, 1) := by decide

/-- T-D19, T-D20, T-D18, T-D21: which fault is reported, no wrapping, a fault before the wide case;
T-D11, T-D10: the wide case runs, and height 0 never faults. -/
theorem test_drw_bounds :
    faultOf 0xD012 (sprite 4 0x1F 0xFFF) = some (.addressFault .mem 4096) ∧
    faultOf 0xD012 (sprite 4 0x20 0xFFF) = some (.addressFault .displayRow 32) ∧
    faultOf 0xD012 (sprite 4 5 0xFFFF) = some (.addressFault .mem 65535) ∧
    faultOf 0xD012 (sprite 0x3C 0x1F 0x300) = some (.addressFault .displayRow 32) ∧
    after 0xD012 (sprite 0x39 5 0x300)
      (fun t => (t.fb[(4 : DisplayRow)], t.fb[(7 : DisplayRow)], t.i, t.pc)) =
      some (0, 0, 0x300, 1) ∧
    after 0xD010 ((sprite 0xC8 0xC8 0xFFFF).writeV vf 1) (fun t => (t.readV vf, t.pc)) =
      some (0, 1) := by decide

/-! ### Keyboard -/

/-- T-K1, T-K2. -/
theorem test_skp :
    after 0xE29E { (regs 0 4 0).setPc 0x30 with kp := 0x0010 } State.pc = some 0x32 ∧
    after 0xE29E ((regs 0 4 0).setPc 0x30) State.pc = some 0x31 := by decide

/-- T-K9: not masked. -/
theorem test_skp_unknown :
    faultOf 0xE29E { regs 0 0x14 0 with kp := 0x0010 } = some (.unknownKeyFault 0x14) := by decide

/-- T-K3, T-K4. -/
theorem test_sknp :
    after 0xE2A1 { (regs 0 4 0).setPc 0x30 with kp := 0x0010 } State.pc = some 0x31 ∧
    after 0xE2A1 ((regs 0 4 0).setPc 0x30) State.pc = some 0x32 := by decide

/-- T-K8. -/
theorem test_sknp_unknown :
    faultOf 0xE2A1 (regs 0 0xFF 0) = some (.unknownKeyFault 0xFF) := by decide

/-- T-K10. -/
theorem test_ldVxK : after 0xF70A { (at_ 0x30).writeV 7 0x55 with kp := 0x0004 }
    (fun t => (t.kb, t.wx, t.phase, t.pc, t.readV 7)) =
    some (0x0004, 7, .waitKey, 0x30, 0x55) := by decide

/-- Q1, action 4: the completion; Q4: among several new keys the lowest code for choice 0. -/
theorem test_completion : (selectKey 0 0x0090 = 4 ∧ selectKey 1 0x0090 = 7) ∧
    (match step (waitingFor 0x0014 0x0004) with
    | .next t => some (t.readV 5, t.pc, t.phase, t.kp)
    | _ => none) = some (0x04, 0x31, .ready, 0x0014) := by decide

/-- Q6: a reset ends the wait. -/
theorem test_reset_wait :
    (match step { waitingFor 0x0004 0x0004 with schedule := [.reset []] } with
    | .next t => some (t.phase, t.kp, t.kb, t.wx, t.pc, t.readV 5)
    | _ => none) = some (.ready, 0, 0, 0, 0, 0) := by decide

/-! ### Step and fetch -/

/-- T-A1 through the fetch. -/
theorem test_withFetchWord :
    (match step (State.reset.withFetchWord 16 0x6A2F) with
    | .next t => some (t.readV 0xA, t.pc)
    | _ => none) = some (0x2F, 1) := by decide

/-- R234: in `READY` the engine executes a presented word from any slot; in `WAITKEY` it accepts none. -/
theorem test_present :
    (match step { at_ 0x300 with prog := [(0x300, 0x6A11)], schedule := [.present 0x6A2F] } with
    | .next t => some (t.readV 0xA, t.pc, t.schedule)
    | _ => none) = some (0x2F, 0x301, []) ∧
    (match step { waitingFor 4 4 with schedule := [.present 0x6A2F] } with
    | .next t => some (t.readV 0xA, t.pc, t.phase)
    | _ => none) = some (0, 0x30, .waitKey) := by decide

/-- R215: the countdown of the optional tick stops at 0. -/
theorem test_countDown :
    let t := State.countDown { State.reset with dt := 1, st := 0 }
    t.dt = 0 ∧ t.st = 0 := by decide

/-! ### Witnesses: a state and operands that meet a statement's hypotheses, clause by clause -/

theorem witness_ResetActionEndsAnyWait :
    { waitingFor 4 4 with schedule := [.reset [(0x300, 1)], .engine] }.schedule =
      .reset [(0x300, 1)] :: [.engine] := rfl

theorem witness_RandomMasksOneDraw :
    { State.reset with draws := [0xFF] }.draws = 0xFF :: [] ∧ State.reset.draws = [] := ⟨rfl, rfl⟩

theorem witness_JumpAndNoOpResults : (0x0E1 : Addr) ≠ 0x0E0#12 ∧ (0x0E1 : Addr) ≠ 0x0EE#12 ∧
    (0x0EF : Addr) ≠ 0x0E0#12 ∧ (0x0EF : Addr) ≠ 0x0EE#12 := by decide

theorem witness_CallPushesItsOwnSlot :
    (withStack State.reset 15 1).sp = 15 ∧ (withStack State.reset 14 1).sp ≠ 15 ∧
    State.reset.sp ≠ 15 := by decide

theorem witness_RetPopsTheSavedSlot :
    State.reset.sp = 0 ∧ (withStack State.reset 1 7).sp ≠ 0 ∧ (withStack State.reset 15 7).sp ≠ 0 := by
  decide

theorem witness_ReturnLandsOnTheCall : (withStack State.reset 14 7).sp ≠ 15 := by decide

theorem witness_FifteenNestedCallsFit :
    State.reset.sp.toNat + (List.replicate 15 (0x005 : Addr)).length ≤ 15 ∧
    15 < State.reset.sp.toNat + (List.replicate 16 (0x005 : Addr)).length := by decide

theorem witness_KeySkipResults :
    ((State.reset.writeV 2 15).readV 2).toNat ≤ 15 ∧ 15 < ((State.reset.writeV 2 16).readV 2).toNat := by
  decide

theorem witness_DigitAddressPointsAtItsGlyph :
    (State.reset.writeV 4 0x1A).Inv ∧
    (0xA : Fin 16).val = ((State.reset.writeV 4 0x1A).readV 4).toNat % 16 :=
  ⟨⟨rfl, fun d j => Memory.byteAt_reset_font d j, by decide, nofun⟩, by decide⟩

/-- The last column, the last row and the last byte of memory. -/
theorem witness_DrawXorsTheRowMasks :
    InBounds (sprite 56 31 0xFFF) 1 1 ∧ ((sprite 56 31 0xFFF).readV 0).toNat ≤ 56 ∧
    OnSpriteRow (sprite 56 31 0xFFF) 1 1 31 ∧ ¬OnSpriteRow (sprite 56 31 0xFFF) 1 1 30 := by
  unfold InBounds BreaksBound OnSpriteRow
  decide

theorem witness_DrawTogglesExactlyTheSpritePixels :
    InBounds (sprite 56 0 0xFF1) 1 15 ∧ ((sprite 56 0 0xFF1).readV 0).toNat ≤ 56 ∧
    OnSpriteRow (sprite 56 0 0xFF1) 1 15 14 ∧ ¬OnSpriteRow (sprite 56 0 0xFF1) 1 15 15 := by
  unfold InBounds BreaksBound OnSpriteRow
  decide

theorem witness_DrawingTwiceRestoresTheDisplay :
    (0 : Nibble) ≠ vf ∧ (1 : Nibble) ≠ vf ∧ InBounds (sprite 56 31 0xFFF) 1 1 ∧
    ((sprite 56 31 0xFFF).readV 0).toNat ≤ 56 := by
  unfold InBounds BreaksBound
  decide

/-- Both bounds at one offset; the row bound alone. -/
theorem witness_DrawReportsTheLowestBrokenBound :
    (1 < (2 : Nibble).toNat ∧ BreaksBound (sprite 4 31 0xFFF) 1 1 ∧
      (∀ j < 1, ¬BreaksBound (sprite 4 31 0xFFF) 1 j) ∧ 4096 ≤ (sprite 4 31 0xFFF).i.toNat + 1) ∧
    (0 < (2 : Nibble).toNat ∧ BreaksBound (sprite 4 32 0xFFF) 1 0 ∧
      (∀ j < 0, ¬BreaksBound (sprite 4 32 0xFFF) 1 j) ∧ (sprite 4 32 0xFFF).i.toNat + 0 < 4096) := by
  unfold BreaksBound
  decide

theorem witness_WideDrawChangesOnlyItsRowsAndFlag :
    InBounds (sprite 57 31 0xFFF) 1 1 ∧ 56 < ((sprite 57 31 0xFFF).readV 0).toNat ∧
    (1 : Nibble) ≠ 0 ∧ ¬OnSpriteRow (sprite 57 31 0xFFF) 1 1 30 := by
  unfold InBounds BreaksBound OnSpriteRow
  decide

theorem witness_SnapshotLeavesTheBlockAlone :
    { State.reset with schedule := [.snapshot] }.schedule = .snapshot :: [] := rfl

theorem witness_KeyEventsChangeOneKey :
    { State.reset with schedule := [.setPressed 15] }.schedule = .setPressed 15 :: [] ∧
    { waitingFor 1 1 with schedule := [.setUnpressed 0] }.schedule = .setUnpressed 0 :: [] :=
  ⟨rfl, rfl⟩

theorem witness_KeyWaitEntry : (waitingFor 4 4).phase = .waitKey ∧
    engineTurn (waitingFor 4 4) = .next (waitingFor 4 4) ∧
    (∃ t, engineTurn (waitingFor 0x8004 4) = .next t) ∧
    ∃ t, presentWord 0xF60A (waitingFor 0x8004 4) = .next t := ⟨rfl, rfl, ⟨_, rfl⟩, _, rfl⟩

theorem witness_KeyWaitCompletion : (waitingFor 4 4).phase = .waitKey ∧
    (waitingFor 4 4).kp &&& ~~~(waitingFor 4 4).kb = 0 ∧
    (waitingFor 0x8004 4).kp &&& ~~~(waitingFor 0x8004 4).kb ≠ 0 := by decide

/-- One action of each kind that the statement allows. -/
theorem witness_BaselineKeysNeverCompleteTheWait :
    let s := { waitingFor 4 4 with
      schedule := [.engine, .snapshot, .tick, .present 0x6A2F, .setUnpressed 2, .setPressed 2] }
    s.phase = .waitKey ∧ s.kp &&& ~~~s.kb = 0 ∧
    ∀ a ∈ s.schedule, a = .engine ∨ a = .snapshot ∨ a = .tick ∨ (∃ w, a = .present w) ∨
      (∃ k, a = .setUnpressed k) ∨
      ∃ k : Nibble, a = .setPressed k ∧ s.kb.getLsbD k.toNat = true := by
  refine ⟨rfl, by decide, fun a ha => ?_⟩
  simp only [List.mem_cons, List.not_mem_nil, or_false] at ha
  rcases ha with rfl | rfl | rfl | rfl | rfl | rfl
  · exact .inl rfl
  · exact .inr (.inl rfl)
  · exact .inr (.inr (.inl rfl))
  · exact .inr (.inr (.inr (.inl ⟨0x6A2F, rfl⟩)))
  · exact .inr (.inr (.inr (.inr (.inl ⟨2, rfl⟩))))
  · exact .inr (.inr (.inr (.inr (.inr ⟨2, rfl, by decide⟩))))

theorem witness_PressingANewKeyCompletesTheWait :
    let s := { waitingFor 4 4 with schedule := [.setPressed 15] }
    s.phase = .waitKey ∧ s.schedule = [.setPressed 15] ∧ s.kp &&& ~~~s.kb = 0 ∧
    s.kb.getLsbD (15 : Nibble).toNat = false := by decide

/-- Each form of a turn: used up, naming the engine with more to come, and a presented word. -/
theorem witness_StepRunsTheDecodedInstruction :
    let s := State.reset.withFetchWord 16 0x6A2F
    (s.phase = .ready ∧ decode 0x6A2F = .instr (.ldByte 0xA 0x2F) ∧ s.fetch = some 0x6A2F) ∧
    s.schedule = [] ∧
    { s with schedule := [.engine, .snapshot] }.schedule = .engine :: [.snapshot] ∧
    { s with schedule := [.present 0x6A2F] }.schedule = .present 0x6A2F :: [] := by decide

theorem witness_UnmatchedWordsAreNoOps :
    let s := State.reset.withFetchWord 16 0xF155
    (s.phase = .ready ∧ decode 0xF155 = .undef 0xF155 ∧ s.fetch = some 0xF155) ∧
    s.schedule = [] ∧
    { s with schedule := [.engine, .snapshot] }.schedule = .engine :: [.snapshot] ∧
    { s with schedule := [.present 0xF155] }.schedule = .present 0xF155 :: [] := by decide

/-- Also with an event still to come: the run has ended all the same (R235). -/
theorem witness_EmptySlotChangesNothing :
    (State.reset.phase = .ready ∧ State.reset.fetch = none) ∧ State.reset.schedule = [] ∧
    { State.reset with schedule := [.engine, .setPressed 1] }.schedule =
      .engine :: [.setPressed 1] ∧
    { State.reset with schedule := [.engine, .setPressed 1] }.fetch = none := by decide

theorem witness_DecodingAnEncodedInstructionGivesItBack :
    (Instr.sys 0xFFF).WellFormed ∧ (Instr.sys 0x0E1).WellFormed ∧ (Instr.shr 0xF).WellFormed := by decide

theorem witness_DecodedWordsAreTheirEncodings :
    decode 0x8576 = .instr (.shr 5) ∧ decode 0xDAB5 = .instr (.drw 0xA 0xB 5) ∧
    (∀ x, Instr.drw 0xA 0xB 5 ≠ .shr x ∧ Instr.drw 0xA 0xB 5 ≠ .shl x) ∧
    ∃ x, Instr.shr 5 = .shr x ∨ Instr.shr 5 = .shl x :=
  ⟨by decide, by decide, fun _ => ⟨nofun, nofun⟩, 5, .inl rfl⟩

theorem witness_DecoderAgreesWithTheOpcodeTable :
    decode 0x00E0 = .instr .cls ∧ (OpcodeRow.mk "SYS_addr" 0xF000 0x0000).matchesWord 0x00E0 = true ∧
    decode 0xEA9F = .undef 0xEA9F := by decide

theorem witness_NoInstructionWritesMemory :
    ∃ t, exec (.drw 0 1 2) (sprite 4 5 0x300) = .next t := ⟨_, rfl⟩

theorem witness_OnlyTheListedRegistersAreWritten :
    (∃ t, exec (.addReg 1 2) (regs 0x80 0x81 0) = .next t) ∧ (3 : Nibble) ∉ writesOf (.addReg 1 2) :=
  ⟨⟨_, rfl⟩, by decide⟩

/-- Each clause's premise. -/
theorem witness_EachSpecialRegisterHasItsWriters :
    (∃ t, exec (.ldI 0x300) State.reset = .next t ∧ t.i ≠ State.reset.i) ∧
    (∃ t, exec (.call 0x300) (at_ 7) = .next t ∧ t.sp ≠ (at_ 7).sp ∧ t.stk ≠ (at_ 7).stk) ∧
    (∃ t, exec (.ldDtVx 1) (regs 1 0 0) = .next t ∧ t.dt ≠ (regs 1 0 0).dt) ∧
    (∃ t, exec (.ldStVx 1) (regs 1 0 0) = .next t ∧ t.st ≠ (regs 1 0 0).st) ∧
    (∃ t, exec (.drw 0 1 2) (sprite 4 5 0x300) = .next t ∧ t.fb ≠ (sprite 4 5 0x300).fb) ∧
    ∃ t, exec (.ldVxK 5) { State.reset with kp := 1 } = .next t ∧ t.kb ≠ State.reset.kb ∧
      t.wx ≠ State.reset.wx ∧ t.phase ≠ State.reset.phase :=
  ⟨⟨_, rfl, by decide⟩, ⟨_, rfl, by decide, by decide⟩, ⟨_, rfl, by decide⟩, ⟨_, rfl, by decide⟩,
    ⟨_, rfl, by decide⟩, _, rfl, by decide, by decide, by decide⟩

theorem witness_ProgramCounterMovesBySlots :
    (∃ t, exec (.sys 0) State.reset = .next t) ∧ pcMove (.sys 0) = .oneSlot ∧
    (∃ t, exec (.skp 0) State.reset = .next t) ∧ pcMove (.skp 0) = .skip ∧
    (∃ t, exec (.ldVxK 0) State.reset = .next t) ∧ pcMove (.ldVxK 0) = .atCompletion :=
  ⟨⟨_, rfl⟩, rfl, ⟨_, rfl⟩, rfl, ⟨_, rfl⟩, rfl⟩

theorem witness_SoundTimerIsReadByNoInstruction :
    (∃ t, exec (.ldVxDt 1) State.reset = .next t) ∧ (∀ x, Instr.ldVxDt 1 ≠ .ldStVx x) ∧
    Instr.ldStVx 1 = .ldStVx 1 ∧ ∃ f, exec .ret State.reset = .fault f :=
  ⟨⟨_, rfl⟩, nofun, rfl, _, rfl⟩

theorem witness_HiddenStateIsReadByNoInstruction :
    (∃ t, exec (.skp 0) State.reset = .next t) ∧ (∀ x, Instr.skp 0 ≠ .ldVxK x) ∧
    (∃ t, exec (.ldVxK 5) State.reset = .next t) ∧ ∃ f, exec .ret State.reset = .fault f :=
  ⟨⟨_, rfl⟩, nofun, ⟨_, rfl⟩, _, rfl⟩

/-- Each clause's premise, in the engine's turn, by a presented word and by a reset. -/
theorem witness_TimersHoldTheirValue :
    (∃ t, step ((regs 1 0 0).withFetchWord 16 0xF115) = .next t ∧ t.dt ≠ (regs 1 0 0).dt) ∧
    (∃ t, step { regs 1 0 0 with schedule := [.present 0xF118] } = .next t ∧
      t.st ≠ (regs 1 0 0).st) ∧
    ∃ t, step { State.reset with dt := 1, schedule := [.reset []] } = .next t ∧ t.dt ≠ 1 :=
  ⟨⟨_, rfl, by decide⟩, ⟨_, rfl, by decide⟩, _, rfl, by decide⟩

theorem witness_StepsKeepMemoryAndProgram :
    (∃ t, step (State.reset.withFetchWord 16 0x6A2F) = .next t) ∧
    ∀ image rest, (State.reset.withFetchWord 16 0x6A2F).schedule ≠ .reset image :: rest :=
  ⟨⟨_, rfl⟩, nofun⟩

theorem witness_EveryStepKeepsTheInvariant :
    (waitingFor 4 4).Inv ∧ ∃ t, step (waitingFor 4 4) = .next t :=
  ⟨⟨rfl, fun d j => Memory.byteAt_reset_font d j, by decide,
    fun _ => ⟨0xF50A, by decide, by decide⟩⟩, _, rfl⟩

/-- One no-op and then an empty slot, with nobody else to move; and an end at which the other agents
go on, the driver apart. -/
theorem witness_ARunEndsAtMostOnce :
    (∃ t, EndsNormally 1 (State.reset.withFetchWord 16 0x0000) t) ∧
    (State.reset.withFetchWord 16 0x0000).schedule = [] ∧
    (∃ t, EndsNormally 0 { State.reset with schedule := [.setPressed 3, .tick, .engine] } t ∧
      ∀ a ∈ t.schedule, (∀ w, a ≠ .present w) ∧ ∀ image, a ≠ .reset image) := by
  refine ⟨⟨_, ⟨rfl, fun j hj u hu => ?_⟩, by decide⟩, rfl, _,
    ⟨⟨rfl, fun j hj => by omega⟩, by decide⟩, by simp⟩
  obtain rfl : j = 0 := by omega
  cases hu
  decide

theorem witness_AbsentTickChangesNothing :
    { State.reset with dt := 5, schedule := [.tick] }.schedule = .tick :: [] := rfl

/-- The faults at the edges of their cases, from slot `PC` and presented; and `RET` on the empty
stack in slot 1, reached from slot 0. -/
theorem witness_AStepFaultsExactlyForItsInstruction :
    step (State.reset.withFetchWord 16 0x00EE) = .fault (.stackFault .underflow) ∧
    step ((withStack State.reset 15 7).withFetchWord 16 0x2300) = .fault (.stackFault .overflow) ∧
    step { sprite 4 31 0xFFF with schedule := [.present 0xD012] } =
      .fault (.addressFault .mem 0x1000) ∧
    step ((sprite 4 32 0xFFF).withFetchWord 16 0xD011) = .fault (.addressFault .displayRow 32) ∧
    step ((regs 16 0 0).withFetchWord 16 0xE1A1) = .fault (.unknownKeyFault 16) ∧
    ∃ t f, EndsByFault 1 { State.reset with prog := [(0, 0x0000), (1, 0x00EE)] } t f := by
  refine ⟨rfl, rfl, rfl, rfl, rfl, _, _, ⟨rfl, fun j hj u hu => ?_⟩, by decide, rfl⟩
  obtain rfl : j = 0 := by omega
  cases hu
  decide

end Sys2Proof.Tests
end

section
/-! PROOFS. The control flow instructions `SYS`, `JP`, `JP V0` and `CALL` (40_flow.md). -/

namespace Sys2Proof

/-! ### The decoder on words of format A -/

/-- Words of format A are equal when their fields are. -/
theorem wordA_inj {op op' : Nibble} {a a' : Addr} :
    wordA op a = wordA op' a' ↔ op = op' ∧ a = a' := by
  constructor
  · intro h
    have hop := congrArg fieldOp h
    have hnnn := congrArg fieldNnn h
    simp only [fieldOp_wordA, fieldNnn_wordA] at hop hnnn
    exact ⟨hop, hnnn⟩
  · rintro ⟨rfl, rfl⟩
    rfl

/-- A word of major opcode 0 other than those of `CLS` and `RET` is a `SYS` (R74, R75). -/
theorem decode_wordA_sys {addr : Addr} (hcls : addr ≠ 0x0E0#12) (hret : addr ≠ 0x0EE#12) :
    decode (wordA 0x0#4 addr) = .instr (.sys addr) := by
  have hE0 : wordA 0x0#4 addr ≠ 0x00E0#16 := fun e =>
    hcls (wordA_inj.mp (e.trans (show (0x00E0#16 : Word) = wordA 0x0#4 0x0E0#12 from rfl))).2
  have hEE : wordA 0x0#4 addr ≠ 0x00EE#16 := fun e =>
    hret (wordA_inj.mp (e.trans (show (0x00EE#16 : Word) = wordA 0x0#4 0x0EE#12 from rfl))).2
  simp [decode, hE0, hEE]

theorem decode_wordA_jp (addr : Addr) : decode (wordA 0x1#4 addr) = .instr (.jp addr) := by
  simp [decode]

theorem decode_wordA_call (addr : Addr) : decode (wordA 0x2#4 addr) = .instr (.call addr) := by
  simp [decode]

theorem decode_wordA_jpV0 (addr : Addr) : decode (wordA 0xB#4 addr) = .instr (.jpV0 addr) := by
  simp [decode]

namespace Machine

/-! ### Jump targets as numbers -/

theorem zextAddr_eq_ofNat (addr : Addr) : zextAddr addr = BitVec.ofNat 16 addr.toNat :=
  (BitVec.ofNat_toNat 16 addr).symm

theorem zextByte_eq_ofNat (b : Byte) : zextByte b = BitVec.ofNat 16 b.toNat :=
  (BitVec.ofNat_toNat 16 b).symm

theorem zextAddr_add_zextByte (addr : Addr) (b : Byte) :
    zextAddr addr + zextByte b = BitVec.ofNat 16 (addr.toNat + b.toNat) := by
  rw [zextAddr_eq_ofNat, zextByte_eq_ofNat, BitVec.ofNat_add]

/-- A 12-bit address plus a byte is at most `0x10FE` (R104). -/
theorem addr_add_byte_le (addr : Addr) (b : Byte) : addr.toNat + b.toNat ≤ 0x10FE := by
  have := addr.isLt
  have := b.isLt
  omega

/-! ### The stack after a push, by cases -/

/-- The pushed slot stands at the incremented stack pointer (R103). -/
theorem State.stackEntry_push_same (s : State) (p : Word) :
    (s.push p).stackEntry (s.sp + 1) = p := by
  rw [State.stackEntry_push, if_pos rfl]

/-- A push writes only the entry at the incremented stack pointer (R103). -/
theorem State.stackEntry_push_ne (s : State) (p : Word) {j : StackPointer} (h : j ≠ s.sp + 1) :
    (s.push p).stackEntry j = s.stackEntry j := by
  rw [State.stackEntry_push, if_neg (Ne.symm h)]

/-! ### The obligations -/

/-- Settles O8: each arm of `exec` sets the program counter only, the targets are read as numbers,
and the words are words of format A. -/
theorem jumpAndNoOpResults : Obligations.JumpAndNoOpResults := by
  intro s addr
  refine ⟨exec_sys s addr, ?jp, ?jpV0, addr_add_byte_le addr _, decode_wordA_sys,
    decode_wordA_jp addr, decode_wordA_jpV0 addr⟩
  case jp => rw [exec_jp, zextAddr_eq_ofNat]; rfl
  case jpV0 => rw [exec_jpV0, zextAddr_add_zextByte]; rfl

/-- Settles O9: below `SP = 15` the next state is a push of the own slot followed by a jump, and the
laws of the stack say what it reads; at `SP = 15` the guard answers. -/
theorem callPushesItsOwnSlot : Obligations.CallPushesItsOwnSlot := by
  intro s addr
  refine ⟨decode_wordA_call addr, exec_call_full s addr, fun hsp => ?_⟩
  refine ⟨_, exec_call s addr hsp, ?sp, ?pushed, ?others, ?target, ?frame, rfl⟩
  case sp => exact s.sp_push_toNat s.pc hsp
  case pushed => exact s.stackEntry_push_same s.pc
  case others => exact fun j hj => s.stackEntry_push_ne s.pc hj
  case target => exact zextAddr_eq_ofNat addr
  case frame => exact ⟨fun _ _ => rfl, fun _ => rfl⟩

end Machine

end Sys2Proof
end

section
/-! PROOFS. The conditional skips on registers `SE` and `SNE` (41_skip.md). -/

namespace Sys2Proof

/-! ### The decoder on the words of the register skips -/

theorem decode_wordXK_seByte (x : Nibble) (byte : Byte) :
    decode (wordXK 0x3#4 x byte) = .instr (.seByte x byte) := by
  simp [decode]

theorem decode_wordXK_sneByte (x : Nibble) (byte : Byte) :
    decode (wordXK 0x4#4 x byte) = .instr (.sneByte x byte) := by
  simp [decode]

/-- A word of major opcode 5 with low nibble 0 is `SE Vx,Vy` (R78). -/
theorem decode_wordXY_seReg (x y : Nibble) :
    decode (wordXY 0x5#4 x y 0x0#4) = .instr (.seReg x y) := by
  simp [decode]

/-- A word of major opcode 9 with low nibble 0 is `SNE Vx,Vy` (R78). -/
theorem decode_wordXY_sneReg (x y : Nibble) :
    decode (wordXY 0x9#4 x y 0x0#4) = .instr (.sneReg x y) := by
  simp [decode]

namespace Machine

/-- A skip on a Boolean test that decides `p` moves by two slots when `p` holds, by one otherwise,
and sets nothing but the program counter (R25, R120). -/
theorem State.skipIf_of_iff (s : State) {c : Bool} {p : Prop} [Decidable p] (h : c = true ↔ p) :
    s.skipIf c = { s with pc := if p then s.pc + 2 else s.pc + 1 } := by
  rw [State.skipIf_eq, if_congr h rfl rfl]
  rfl

/-! ### The obligation -/

/-- Settles O13: each of the four is a skip on the Boolean form of its comparison, and the words are
words of formats XK and XY. -/
theorem skipResults : Obligations.SkipResults := by
  intro s x y byte
  refine ⟨?seByte, ?sneByte, ?seReg, ?sneReg, decode_wordXK_seByte x byte,
    decode_wordXK_sneByte x byte, decode_wordXY_seReg x y, decode_wordXY_sneReg x y⟩
  case seByte => rw [exec_seByte, s.skipIf_of_iff beq_iff_eq]
  case sneByte => rw [exec_sneByte, s.skipIf_of_iff bne_iff_ne]
  case seReg => rw [exec_seReg, s.skipIf_of_iff beq_iff_eq]
  case sneReg => rw [exec_sneReg, s.skipIf_of_iff bne_iff_ne]

end Machine

end Sys2Proof
end

section
/-! PROOFS. The load, logic, add and shift instructions on registers (42_load_alu.md). -/

namespace Sys2Proof

/-! ### The decoder on the words of major opcodes 6, 7 and 8 -/

theorem decode_wordXK_ldByte (x : Nibble) (byte : Byte) :
    decode (wordXK 0x6#4 x byte) = .instr (.ldByte x byte) := by
  simp [decode]

theorem decode_wordXK_addByte (x : Nibble) (byte : Byte) :
    decode (wordXK 0x7#4 x byte) = .instr (.addByte x byte) := by
  simp [decode]

/-- A word of major opcode 8 is decoded by its low nibble (R75). -/
theorem decode_wordXY_eight (x y n : Nibble) :
    decode (wordXY 0x8#4 x y n) = decode8 (wordXY 0x8#4 x y n) := by
  simp [decode]

section
variable (x y : Nibble)

theorem decode_wordXY_ldReg : decode (wordXY 0x8#4 x y 0x0#4) = .instr (.ldReg x y) := by
  simp [decode_wordXY_eight, decode8]

theorem decode_wordXY_orReg : decode (wordXY 0x8#4 x y 0x1#4) = .instr (.orReg x y) := by
  simp [decode_wordXY_eight, decode8]

theorem decode_wordXY_andReg : decode (wordXY 0x8#4 x y 0x2#4) = .instr (.andReg x y) := by
  simp [decode_wordXY_eight, decode8]

theorem decode_wordXY_xorReg : decode (wordXY 0x8#4 x y 0x3#4) = .instr (.xorReg x y) := by
  simp [decode_wordXY_eight, decode8]

theorem decode_wordXY_addReg : decode (wordXY 0x8#4 x y 0x4#4) = .instr (.addReg x y) := by
  simp [decode_wordXY_eight, decode8]

/-- The `y` field of `SHR` is ignored (R77). -/
theorem decode_wordXY_shr : decode (wordXY 0x8#4 x y 0x6#4) = .instr (.shr x) := by
  simp [decode_wordXY_eight, decode8]

/-- The `y` field of `SHL` is ignored (R77). -/
theorem decode_wordXY_shl : decode (wordXY 0x8#4 x y 0xE#4) = .instr (.shl x) := by
  simp [decode_wordXY_eight, decode8]

end

namespace Machine

/-! ### The two forms of a register result -/

section
variable {i : Instr} {s : State} {x : Nibble} {f b : Byte}

/-- One register write and an advance leave the written value and touch nothing else (R130). -/
theorem writesRegister_of_exec (h : exec i s = .next (s.writeV x b).advance) :
    WritesRegister i x b s := by
  refine ⟨_, h, ?result, rfl, ⟨?others, fun _ => rfl⟩, rfl⟩
  case result => exact s.readV_writeV_same x b
  case others => exact fun r hr => s.readV_writeV_ne b (List.ne_of_not_mem_cons hr)

/-- A flag write, a result write and an advance leave the result in `V[x]`, the flag in `VF` where
`x` is not 15, and touch nothing else (R131). -/
theorem writesFlagAndRegister_of_exec (h : exec i s = .next (s.writeFlagResult x f b).advance) :
    WritesFlagAndRegister i x f b s := by
  refine ⟨_, h, ?result, ?flag, rfl, ⟨?others, fun _ => rfl⟩, rfl⟩
  case result => exact s.readV_writeFlagResult_result x f b
  case flag => exact s.readV_writeFlagResult_flag f b
  case others =>
    intro r hr
    obtain ⟨hvf, hx⟩ := List.ne_and_not_mem_of_not_mem_cons hr
    exact s.readV_writeFlagResult_ne f b hvf (List.ne_of_not_mem_cons hx)

end

/-! ### The obligations -/

/-- Settles O4: each of the six is one register write and an advance, the sum is read as a number,
and the words are words of formats XK and XY. -/
theorem loadAndLogicResults : Obligations.LoadAndLogicResults := by
  intro s x y byte
  refine ⟨writesRegister_of_exec (exec_ldByte s x byte), ?addByte,
    writesRegister_of_exec (exec_ldReg s x y), writesRegister_of_exec (exec_orReg s x y),
    writesRegister_of_exec (exec_andReg s x y), writesRegister_of_exec (exec_xorReg s x y),
    decode_wordXK_ldByte x byte, decode_wordXK_addByte x byte, decode_wordXY_ldReg x y,
    decode_wordXY_orReg x y, decode_wordXY_andReg x y, decode_wordXY_xorReg x y⟩
  case addByte =>
    rw [← add_eq_ofNat]
    exact writesRegister_of_exec (exec_addByte s x byte)

/-- Settles O5: each of the three writes the flag, then the result, and advances; the laws of the
flags read both as numbers, and the words are words of format XY. -/
theorem flaggedAddAndShiftResults : Obligations.FlaggedAddAndShiftResults := by
  intro s x y
  refine ⟨?addReg, ?shr, ?shl, decode_wordXY_addReg x y, decode_wordXY_shr x y,
    decode_wordXY_shl x y⟩
  case addReg =>
    rw [← carryFlag_eq, ← add_eq_ofNat]
    exact writesFlagAndRegister_of_exec (exec_addReg s x y)
  case shr =>
    rw [← lowBitFlag_eq, ← ushiftRight_one_eq_ofNat]
    exact writesFlagAndRegister_of_exec (exec_shr s x)
  case shl =>
    rw [← highBitFlag_eq, ← shiftLeft_one_eq_ofNat]
    exact writesFlagAndRegister_of_exec (exec_shl s x)

end Machine

end Sys2Proof
end

section
/-! PROOFS. The load of the index register and the timer instructions (43_index_timer.md). -/

namespace Sys2Proof

/-! ### The decoder on the words of major opcodes A and F -/

theorem decode_wordA_ldI (addr : Addr) : decode (wordA 0xA#4 addr) = .instr (.ldI addr) := by
  simp [decode]

/-- A word of major opcode F is decoded by its low byte (R75). -/
theorem decode_wordXK_fifteen (x : Nibble) (kk : Byte) :
    decode (wordXK 0xF#4 x kk) = decodeF (wordXK 0xF#4 x kk) := by
  simp [decode]

section
variable (x : Nibble)

theorem decode_wordXK_ldVxDt : decode (wordXK 0xF#4 x 0x07#8) = .instr (.ldVxDt x) := by
  simp [decode_wordXK_fifteen, decodeF]

theorem decode_wordXK_ldDtVx : decode (wordXK 0xF#4 x 0x15#8) = .instr (.ldDtVx x) := by
  simp [decode_wordXK_fifteen, decodeF]

theorem decode_wordXK_ldStVx : decode (wordXK 0xF#4 x 0x18#8) = .instr (.ldStVx x) := by
  simp [decode_wordXK_fifteen, decodeF]

end

namespace Machine

/-! ### The obligation -/

/-- Settles O15: the two timer loads set one field and advance, `LD Vx,DT` is one register write and
an advance, the address loaded into `I` is read as a number, and the words are words of formats A
and XK. -/
theorem indexLoadAndTimerResults : Obligations.IndexLoadAndTimerResults := by
  intro s x addr
  refine ⟨?ldI, writesRegister_of_exec (exec_ldVxDt s x), exec_ldDtVx s x, exec_ldStVx s x,
    decode_wordA_ldI addr, decode_wordXK_ldVxDt x, decode_wordXK_ldDtVx x, decode_wordXK_ldStVx x⟩
  case ldI => rw [exec_ldI, zextAddr_eq_ofNat]; rfl

end Machine

end Sys2Proof
end

section
/-! PROOFS. The display instructions `CLS` and `DRW` inside the display (44_display.md). -/

namespace Sys2Proof.Machine

/-! ### The spec's terms for a draw, in the renderer's -/

/-- The mask as a number is the mask the renderer shifts into place (R163). -/
theorem maskOf_eq_rowMask (s : State) (x y : Nibble) (r : DisplayRow) :
    maskOf s x y r = rowMask (spriteByteOf s y r) (s.readV x).toNat :=
  BitVec.eq_of_toNat_eq (by rw [maskOf, ← rowMask_toNat, BitVec.ofNat_toNat, BitVec.setWidth_eq])

section
variable {s : State} {x y n : Nibble}

/-- Where no row offset breaks a bound the sprite is read whole (R164). -/
theorem spriteStrip_ok_of_inBounds (hb : InBounds s y n) :
    ∃ strip, spriteStrip s.mem s.i.toNat (s.readV y).toNat n.toNat = .ok strip :=
  spriteStrip_ok s.mem n.toNat s.i.toNat (s.readV y).toNat fun k hk => by
    simpa [BreaksBound] using hb k hk

/-- `DRW` inside the display: the new display row by row, and the collision as the test on the old
display (R162, R163, R165). -/
theorem exec_drw_inside (hb : InBounds s y n) (hx : (s.readV x).toNat ≤ 56) :
    ∃ (fb : Framebuffer) (hit : Bool),
      exec (.drw x y n) s = .next ((s.setFb fb).writeV vf (flagBit hit)).advance ∧
      (∀ r, OnSpriteRow s y n r → fb[r] = s.fb[r] ^^^ maskOf s x y r) ∧
      (∀ r, ¬OnSpriteRow s y n r → fb[r] = s.fb[r]) ∧
      (hit = true ↔ ∃ r, OnSpriteRow s y n r ∧ maskOf s x y r &&& s.fb[r] ≠ 0) := by
  obtain ⟨strip, hstrip⟩ := spriteStrip_ok_of_inBounds hb
  obtain ⟨rows, others, collision⟩ :=
    drawStrip_spec s.mem (s.readV x).toNat n.toNat s.i.toNat (s.readV y).toNat strip s.fb hstrip
  simp only [maskOf_eq_rowMask]
  refine ⟨_, _, ?exec, fun r hr => rows r hr.1 hr.2, others, collision⟩
  case exec =>
    rcases execDrw_cases x y n s with ⟨f, hf, -⟩ | ⟨_, -, -, hwide, -⟩ | ⟨strip', hs, -, e⟩
    · rw [hstrip] at hf; cases hf
    · omega
    · rw [hstrip] at hs; cases hs; exact e

end

/-- A new display, a new `VF` and an advance leave every other register and memory as they were. -/
theorem sameBut_setFb_writeV_advance (s : State) (fb : Framebuffer) (flag : Byte) :
    SameBut [vf] s ((s.setFb fb).writeV vf flag).advance :=
  ⟨fun _ hr => (s.setFb fb).readV_writeV_ne flag (List.ne_of_not_mem_cons hr), fun _ => rfl⟩

/-! ### The obligations -/

/-- Settles O18: `CLS` sets the display to zero rows and advances. -/
theorem clearScreenResult : Obligations.ClearScreenResult := by
  refine ⟨by decide, fun s => ⟨_, exec_cls s, ?rows, rfl, ⟨fun _ _ => rfl, fun _ => rfl⟩, rfl⟩⟩
  case rows => exact fun r => Vector.getElem_replicate r.isLt

/-- Settles O19: the draw inside the display, row by row; its collision test on the old display is
the one on the new display, since the two forms agree on every row of the sprite. -/
theorem drawXorsTheRowMasks : Obligations.DrawXorsTheRowMasks := by
  intro s x y n hb hx
  obtain ⟨fb, hit, hexec, rows, others, collision⟩ := exec_drw_inside hb hx
  have forms : ∀ r, OnSpriteRow s y n r →
      maskOf s x y r &&& ~~~fb[r] = maskOf s x y r &&& s.fb[r] := fun r hr => by
    rw [rows r hr, mask_and_not_xor]
  refine ⟨_, hexec, rows, others, ?masks, ?flag, forms, rfl,
    sameBut_setFb_writeV_advance s fb _, rfl⟩
  case masks => exact fun r => by rw [maskOf_eq_rowMask, rowMask_toNat]
  case flag =>
    have hvf : ((s.setFb fb).writeV vf (flagBit hit)).advance.readV vf = flagBit hit :=
      (s.setFb fb).readV_writeV_same vf _
    cases hit with
    | true =>
      obtain ⟨r, hr, hmeet⟩ := collision.mp rfl
      exact .inl ⟨hvf, r, hr, (forms r hr).trans_ne hmeet⟩
    | false =>
      refine .inr ⟨hvf, fun r hr => (forms r hr).trans ?_⟩
      by_contra hmeet
      exact Bool.false_ne_true (collision.mpr ⟨r, hr, hmeet⟩)

end Sys2Proof.Machine
end

section
/-! PROOFS. Key events and the entry of the key wait (45_keyboard.md). -/

namespace Sys2Proof

theorem decode_wordXK_ldVxK (x : Nibble) : decode (wordXK 0xF#4 x 0x0A#8) = .instr (.ldVxK x) := by
  simp [decode_wordXK_fifteen, decodeF]

namespace Machine

/-! ### The baseline of a wait -/

/-- Right after a wait entry the baseline holds every pressed key, so no key is new (R188, R190). -/
theorem State.newKeys_eq_zero_of_baseline {s : State} (h : s.kb = s.kp) : s.newKeys = 0 :=
  s.newKeys_eq_zero_iff.mpr fun k hk => by rwa [h]

/-- In a wait, the engine's turn takes no new baseline and remembers no other register, whether the
wait goes on or completes (R189, R190). -/
theorem engineTurn_waiting_keeps_baseline {s t : State} (hp : s.phase = .waitKey)
    (h : engineTurn s = .next t) : t.kb = s.kb ∧ t.wx = s.wx := by
  by_cases hn : s.newKeys = 0
  · rw [engineTurn_holds hp hn] at h
    cases h
    exact ⟨rfl, rfl⟩
  · rw [engineTurn_completes hp hn, State.completeWait_eq] at h
    cases h
    exact ⟨rfl, rfl⟩

/-- In a wait, a presented word takes no new baseline and remembers no other register (R189). -/
theorem presentWord_waiting_keeps_baseline {w : Word} {s t : State} (hp : s.phase = .waitKey)
    (h : presentWord w s = .next t) : t.kb = s.kb ∧ t.wx = s.wx := by
  rw [presentWord_waiting hp] at h
  cases h
  exact ⟨rfl, rfl⟩

/-! ### The obligations -/

/-- Settles O26: the scheduled event is the whole step, and the laws of the two events say what each
bit of `KP` is afterwards. -/
theorem keyEventsChangeOneKey : Obligations.KeyEventsChangeOneKey := by
  intro s k rest
  refine ⟨fun hs => ⟨_, step_scheduled hs, ?pressed, rfl⟩,
    fun hs => ⟨_, step_scheduled hs, ?released, rfl⟩⟩
  case pressed => exact State.getLsbD_pressKey { s with schedule := rest } k
  case released => exact State.getLsbD_releaseKey { s with schedule := rest } k

/-- Settles O27: the entry's arm of `exec` sets the baseline to the pressed keys, `WX` and the phase;
in a wait neither form of turn reaches an entry. -/
theorem keyWaitEntry : Obligations.KeyWaitEntry := by
  intro s x
  refine ⟨decode_wordXK_ldVxK x, ⟨_, exec_ldVxK s x, rfl, ?noNewKey, rfl⟩, fun hp t ht => ?waiting⟩
  case noNewKey => exact State.newKeys_eq_zero_of_baseline rfl
  case waiting =>
    obtain h | ⟨w, h⟩ := ht
    · exact engineTurn_waiting_keeps_baseline hp h
    · exact presentWord_waiting_keeps_baseline hp h

end Machine

end Sys2Proof
end

section
/-! PROOFS. The decoder, the encoder and the opcode table (30_encoding.md). -/

namespace Sys2Proof

/-! ### The decoder on the remaining words -/

theorem decode_wordXY_subReg (x y : Nibble) :
    decode (wordXY 0x8#4 x y 0x5#4) = .instr (.subReg x y) := by
  simp [decode_wordXY_eight, decode8]

theorem decode_wordXY_subnReg (x y : Nibble) :
    decode (wordXY 0x8#4 x y 0x7#4) = .instr (.subnReg x y) := by
  simp [decode_wordXY_eight, decode8]

theorem decode_wordXK_rnd (x : Nibble) (byte : Byte) :
    decode (wordXK 0xC#4 x byte) = .instr (.rnd x byte) := by
  simp [decode]

theorem decode_wordXY_drw (x y n : Nibble) :
    decode (wordXY 0xD#4 x y n) = .instr (.drw x y n) := by
  simp [decode]

/-- A word of major opcode E is decoded by its low byte (R75). -/
theorem decode_wordXK_fourteen (x : Nibble) (kk : Byte) :
    decode (wordXK 0xE#4 x kk) = decodeE (wordXK 0xE#4 x kk) := by
  simp [decode]

section
variable (x : Nibble)

theorem decode_wordXK_skp : decode (wordXK 0xE#4 x 0x9E#8) = .instr (.skp x) := by
  simp [decode_wordXK_fourteen, decodeE]

theorem decode_wordXK_sknp : decode (wordXK 0xE#4 x 0xA1#8) = .instr (.sknp x) := by
  simp [decode_wordXK_fourteen, decodeE]

theorem decode_wordXK_addI : decode (wordXK 0xF#4 x 0x1E#8) = .instr (.addI x) := by
  simp [decode_wordXK_fifteen, decodeF]

theorem decode_wordXK_ldF : decode (wordXK 0xF#4 x 0x29#8) = .instr (.ldF x) := by
  simp [decode_wordXK_fifteen, decodeF]

end

/-- A well-formed `SYS` is neither the word of `CLS` nor that of `RET` (R74). -/
theorem wellFormed_sys_iff (addr : Addr) :
    (Instr.sys addr).WellFormed ↔ addr ≠ 0x0E0#12 ∧ addr ≠ 0x0EE#12 := by
  simp [Instr.WellFormed, Instr.wellFormed]

/-- Settles O35: for each constructor, the decoder on the word of its row. -/
theorem decodingAnEncodedInstructionGivesItBack :
    Obligations.DecodingAnEncodedInstructionGivesItBack := by
  intro i hwf
  cases i with
  | sys addr =>
    obtain ⟨hcls, hret⟩ := (wellFormed_sys_iff addr).mp hwf
    exact decode_wordA_sys hcls hret
  | cls => decide
  | ret => decide
  | jp addr => exact decode_wordA_jp addr
  | call addr => exact decode_wordA_call addr
  | seByte x byte => exact decode_wordXK_seByte x byte
  | sneByte x byte => exact decode_wordXK_sneByte x byte
  | seReg x y => exact decode_wordXY_seReg x y
  | sneReg x y => exact decode_wordXY_sneReg x y
  | ldByte x byte => exact decode_wordXK_ldByte x byte
  | addByte x byte => exact decode_wordXK_addByte x byte
  | ldReg x y => exact decode_wordXY_ldReg x y
  | orReg x y => exact decode_wordXY_orReg x y
  | andReg x y => exact decode_wordXY_andReg x y
  | xorReg x y => exact decode_wordXY_xorReg x y
  | addReg x y => exact decode_wordXY_addReg x y
  | subReg x y => exact decode_wordXY_subReg x y
  | shr x => exact decode_wordXY_shr x 0
  | subnReg x y => exact decode_wordXY_subnReg x y
  | shl x => exact decode_wordXY_shl x 0
  | ldI addr => exact decode_wordA_ldI addr
  | jpV0 addr => exact decode_wordA_jpV0 addr
  | rnd x byte => exact decode_wordXK_rnd x byte
  | drw x y n => exact decode_wordXY_drw x y n
  | skp x => exact decode_wordXK_skp x
  | sknp x => exact decode_wordXK_sknp x
  | ldVxDt x => exact decode_wordXK_ldVxDt x
  | ldVxK x => exact decode_wordXK_ldVxK x
  | ldDtVx x => exact decode_wordXK_ldDtVx x
  | ldStVx x => exact decode_wordXK_ldStVx x
  | addI x => exact decode_wordXK_addI x
  | ldF x => exact decode_wordXK_ldF x

/-! ### The words of each major opcode -/

section
variable {w : Word} {op y n : Nibble} {kk : Byte}

/-- A word is the word of its format with its own remaining fields. -/
theorem wordA_of_op (h : fieldOp w = op) : wordA op (fieldNnn w) = w := h ▸ wordA_fields w

theorem wordXK_of_op (h : fieldOp w = op) : wordXK op (fieldX w) (fieldKk w) = w :=
  h ▸ wordXK_fields w

theorem wordXK_of_op_kk (h : fieldOp w = op) (hk : fieldKk w = kk) :
    wordXK op (fieldX w) kk = w := hk ▸ wordXK_of_op h

theorem wordXY_of_op (h : fieldOp w = op) : wordXY op (fieldX w) (fieldY w) (fieldN w) = w :=
  h ▸ wordXY_fields w

theorem wordXY_of_op_n (h : fieldOp w = op) (hn : fieldN w = n) :
    wordXY op (fieldX w) (fieldY w) n = w := hn ▸ wordXY_of_op h

/-- Masking with `0xFF0F` keeps the other fields and sets `y` to 0. -/
theorem and_zero_y (w : Word) :
    w &&& 0xFF0F#16 = wordXY (fieldOp w) (fieldX w) 0x0#4 (fieldN w) := by
  conv_lhs => rw [← wordXY_fields w, show (0xFF0F#16 : Word) = wordXY 0xF 0xF 0 0xF from rfl]
  rw [wordXY_and, wordXY_inj]
  exact ⟨BitVec.and_allOnes, BitVec.and_allOnes, BitVec.and_zero, BitVec.and_allOnes⟩

end

/-! ### The word a decoded instruction came from -/

/-- `w` is the word of `i`, which is well formed, but for the `y` field that `SHR` and `SHL` ignore
(R74, R77). -/
def Carries (w : Word) (i : Instr) : Prop :=
  i.WellFormed ∧ ((∀ x, i ≠ .shr x ∧ i ≠ .shl x) → encode i = w) ∧
    ((∃ x, i = .shr x ∨ i = .shl x) → encode i = w &&& 0xFF0F#16)

section
variable {w : Word} {i : Instr}

/-- An instruction whose word has no ignored field. -/
theorem carries_of_encode_eq (hwf : i.WellFormed) (hno : ∀ x, i ≠ .shr x ∧ i ≠ .shl x)
    (h : encode i = w) : Carries w i := by
  refine ⟨hwf, fun _ => h, ?_⟩
  rintro ⟨x, rfl | rfl⟩
  · exact absurd rfl (hno x).1
  · exact absurd rfl (hno x).2

/-- A shift, whose `y` field is ignored. -/
theorem carries_of_encode_eq_and (hwf : i.WellFormed) (hshift : ∃ x, i = .shr x ∨ i = .shl x)
    (h : encode i = w &&& 0xFF0F#16) : Carries w i := by
  refine ⟨hwf, fun hno => ?_, fun _ => h⟩
  obtain ⟨x, rfl | rfl⟩ := hshift
  · exact absurd rfl (hno x).1
  · exact absurd rfl (hno x).2

/-- A `SYS` word that is not the word of `CLS` or `RET` carries a well-formed `SYS` (R75). -/
theorem carries_sys (hop : fieldOp w = 0x0) (hcls : w ≠ 0x00E0#16) (hret : w ≠ 0x00EE#16) :
    Carries w (.sys (fieldNnn w)) := by
  have hw := wordA_of_op hop
  refine carries_of_encode_eq ((wellFormed_sys_iff _).mpr ⟨fun e => ?_, fun e => ?_⟩) (by simp) hw
  · exact hcls (by rw [← hw, e]; rfl)
  · exact hret (by rw [← hw, e]; rfl)

theorem decode8_carries (hop : fieldOp w = 0x8) (h : decode8 w = .instr i) : Carries w i := by
  unfold decode8 at h
  split at h
  case h_7 hn =>
    cases h
    refine carries_of_encode_eq_and rfl ⟨_, .inl rfl⟩ ?_
    rw [and_zero_y, hop, show fieldN w = 0x6 from BitVec.eq_of_toNat_eq hn]
    rfl
  case h_9 hn =>
    cases h
    refine carries_of_encode_eq_and rfl ⟨_, .inr rfl⟩ ?_
    rw [and_zero_y, hop, show fieldN w = 0xE from BitVec.eq_of_toNat_eq hn]
    rfl
  case h_10 => cases h
  all_goals
    cases h
    exact carries_of_encode_eq rfl (by simp)
      (wordXY_of_op_n hop (BitVec.eq_of_toNat_eq (by assumption)))

theorem decodeE_carries (hop : fieldOp w = 0xE) (h : decodeE w = .instr i) : Carries w i := by
  unfold decodeE at h
  split_ifs at h with h1 h2
  all_goals cases h
  · exact carries_of_encode_eq rfl (by simp) (wordXK_of_op_kk hop h1)
  · exact carries_of_encode_eq rfl (by simp) (wordXK_of_op_kk hop h2)

theorem decodeF_carries (hop : fieldOp w = 0xF) (h : decodeF w = .instr i) : Carries w i := by
  unfold decodeF at h
  split_ifs at h
  all_goals
    cases h
    exact carries_of_encode_eq rfl (by simp) (wordXK_of_op_kk hop (by assumption))

/-- A word that decodes to an instruction carries it: the decoder's branches, by major opcode. -/
theorem decode_carries (h : decode w = .instr i) : Carries w i := by
  unfold decode at h
  split at h
  all_goals rename_i hop
  case h_1 =>
    split_ifs at h with hcls hret
    all_goals cases h
    · exact carries_of_encode_eq rfl (by simp) hcls.symm
    · exact carries_of_encode_eq rfl (by simp) hret.symm
    · exact carries_sys (BitVec.eq_of_toNat_eq hop) hcls hret
  case h_2 | h_3 | h_11 | h_12 =>
    cases h
    exact carries_of_encode_eq rfl (by simp) (wordA_of_op (BitVec.eq_of_toNat_eq hop))
  case h_4 | h_5 | h_7 | h_8 | h_13 =>
    cases h
    exact carries_of_encode_eq rfl (by simp) (wordXK_of_op (BitVec.eq_of_toNat_eq hop))
  case h_6 | h_10 =>
    split_ifs at h with hn
    cases h
    exact carries_of_encode_eq rfl (by simp) (wordXY_of_op_n (BitVec.eq_of_toNat_eq hop) hn)
  case h_9 => exact decode8_carries (BitVec.eq_of_toNat_eq hop) h
  case h_14 =>
    cases h
    exact carries_of_encode_eq rfl (by simp) (wordXY_of_op (BitVec.eq_of_toNat_eq hop))
  case h_15 => exact decodeE_carries (BitVec.eq_of_toNat_eq hop) h
  case h_16 => exact decodeF_carries (BitVec.eq_of_toNat_eq hop) h
  case h_17 => cases h

end

/-- Settles O36: what `Carries` says of the word and the instruction it decodes to. -/
theorem decodedWordsAreTheirEncodings : Obligations.DecodedWordsAreTheirEncodings :=
  fun _ _ h => decode_carries h

/-! ### The words that decode to no instruction -/

section
variable (w : Word)

theorem decode8_eq_undef_iff : decode8 w = .undef w ↔
    fieldN w ∈ [0x8#4, 0x9#4, 0xA#4, 0xB#4, 0xC#4, 0xD#4, 0xF#4] := by
  have hlt := (fieldN w).isLt
  unfold decode8
  split
  case h_10 =>
    simp only [imp_false] at *
    simp [← BitVec.toNat_inj]
    omega
  all_goals simp_all [← BitVec.toNat_inj]

theorem decodeE_eq_undef_iff : decodeE w = .undef w ↔ fieldKk w ∉ [0x9E#8, 0xA1#8] := by
  unfold decodeE
  split_ifs <;> simp_all

theorem decodeF_eq_undef_iff : decodeF w = .undef w ↔
    fieldKk w ∉ [0x07#8, 0x0A#8, 0x15#8, 0x18#8, 0x1E#8, 0x29#8] := by
  unfold decodeF
  split_ifs <;> simp_all

end

/-- Settles O38: the branches of the decoder, by major opcode; those of 5, 8, 9, E and F have an
`UNDEF` word each. -/
theorem unmatchedWordsAreExactlyThoseListed :
    Obligations.UnmatchedWordsAreExactlyThoseListed := by
  intro w
  have hlt := (fieldOp w).isLt
  unfold decode
  split
  all_goals rename_i hop
  case h_1 => split_ifs <;> simp [← BitVec.toNat_inj, hop]
  case h_9 => simp [← BitVec.toNat_inj, hop, decode8_eq_undef_iff]
  case h_15 => simp [← BitVec.toNat_inj, hop, decodeE_eq_undef_iff]
  case h_16 => simp [← BitVec.toNat_inj, hop, decodeF_eq_undef_iff]
  case h_17 =>
    simp only [imp_false] at *
    omega
  all_goals simp [← BitVec.toNat_inj, hop]

/-! ### The opcode table -/

/-- A word that matches the row decodes to an instruction, and the row is that instruction's or the
`SYS` row (R75). -/
def RowDecodes (q : OpcodeRow) : Prop :=
  ∀ w, q.matchesWord w = true →
    ∃ i, decode w = .instr i ∧ (q.mnemonic = i.mnemonic ∨ q.mnemonic = "SYS_addr")

section
variable {op y n : Nibble} {p : Word}

/-- A row that fixes the whole word. -/
theorem rowDecodes_word {i : Instr} (h : decode p = .instr i) :
    RowDecodes ⟨i.mnemonic, 0xFFFF#16, p⟩ := by
  intro w hw
  obtain rfl := (matchesWord_word _ w p).mp hw
  exact ⟨i, h, .inl rfl⟩

/-- A row of format A. -/
theorem rowDecodes_wordA {m : String} {f : Addr → Instr} (hp : p = wordXY op 0 0 0)
    (h : ∀ a, decode (wordA op a) = .instr (f a)) (hm : ∀ a, m = (f a).mnemonic) :
    RowDecodes ⟨m, 0xF000#16, p⟩ := by
  intro w hw
  have hop := (matchesWord_op _ w p hp).mp hw
  rw [← wordA_of_op hop]
  exact ⟨_, h _, .inl (hm _)⟩

/-- A row of format XK. -/
theorem rowDecodes_wordXK {m : String} {f : Nibble → Byte → Instr} (hp : p = wordXY op 0 0 0)
    (h : ∀ x kk, decode (wordXK op x kk) = .instr (f x kk)) (hm : ∀ x kk, m = (f x kk).mnemonic) :
    RowDecodes ⟨m, 0xF000#16, p⟩ := by
  intro w hw
  have hop := (matchesWord_op _ w p hp).mp hw
  rw [← wordXK_of_op hop]
  exact ⟨_, h _ _, .inl (hm _ _)⟩

/-- A row of format XY. -/
theorem rowDecodes_wordXY {m : String} {f : Nibble → Nibble → Instr} (hp : p = wordXY op 0 0 n)
    (h : ∀ x y, decode (wordXY op x y n) = .instr (f x y)) (hm : ∀ x y, m = (f x y).mnemonic) :
    RowDecodes ⟨m, 0xF00F#16, p⟩ := by
  intro w hw
  obtain ⟨hop, hn⟩ := (matchesWord_op_n _ w p hp).mp hw
  rw [← wordXY_of_op_n hop hn]
  exact ⟨_, h _ _, .inl (hm _ _)⟩

/-- A row of format X. -/
theorem rowDecodes_wordX {m : String} {f : Nibble → Instr} (hp : p = wordXY op 0 y n)
    (h : ∀ x, decode (wordXK op x (y ++ n)) = .instr (f x)) (hm : ∀ x, m = (f x).mnemonic) :
    RowDecodes ⟨m, 0xF0FF#16, p⟩ := by
  intro w hw
  obtain ⟨hop, hkk⟩ := (matchesWord_op_kk _ w p hp).mp hw
  rw [← wordXK_of_op_kk hop hkk]
  exact ⟨_, h _, .inl (hm _)⟩

/-- The row of format XYN. -/
theorem rowDecodes_drw : RowDecodes ⟨"DRW_Vx_Vy_n", 0xF000#16, 0xD000#16⟩ := by
  intro w hw
  have hop := (matchesWord_op _ w _ (op := 0xD) rfl).mp hw
  rw [← wordXY_of_op hop]
  exact ⟨_, decode_wordXY_drw _ _ _, .inl rfl⟩

/-- The `SYS` row also matches the words of `CLS` and `RET`, which decode to those (R75). -/
theorem rowDecodes_sys : RowDecodes ⟨"SYS_addr", 0xF000#16, 0x0000#16⟩ := by
  intro w hw
  have hop : fieldOp w = 0x0 := (matchesWord_op _ w _ rfl).mp hw
  by_cases hcls : w = 0x00E0#16
  · exact ⟨.cls, by rw [hcls]; decide, .inr rfl⟩
  by_cases hret : w = 0x00EE#16
  · exact ⟨.ret, by rw [hret]; decide, .inr rfl⟩
  exact ⟨.sys (fieldNnn w), by simp [decode, hop, hcls, hret], .inr rfl⟩

end

theorem rowDecodes_wide : ∀ q ∈ opcodeRowsWide, RowDecodes q := by
  simp only [opcodeRowsWide, List.forall_mem_cons]
  exact ⟨rowDecodes_word (i := .cls) (by decide), rowDecodes_word (i := .ret) (by decide),
    rowDecodes_sys, rowDecodes_wordA rfl decode_wordA_jp fun _ => rfl,
    rowDecodes_wordA rfl decode_wordA_call fun _ => rfl,
    rowDecodes_wordXK rfl decode_wordXK_seByte fun _ _ => rfl,
    rowDecodes_wordXK rfl decode_wordXK_sneByte fun _ _ => rfl,
    rowDecodes_wordXK rfl decode_wordXK_ldByte fun _ _ => rfl,
    rowDecodes_wordXK rfl decode_wordXK_addByte fun _ _ => rfl,
    rowDecodes_wordA rfl decode_wordA_ldI fun _ => rfl,
    rowDecodes_wordA rfl decode_wordA_jpV0 fun _ => rfl,
    rowDecodes_wordXK rfl decode_wordXK_rnd fun _ _ => rfl, rowDecodes_drw, nofun⟩

theorem rowDecodes_xy : ∀ q ∈ opcodeRowsXY, RowDecodes q := by
  simp only [opcodeRowsXY, List.forall_mem_cons]
  exact ⟨rowDecodes_wordXY rfl decode_wordXY_seReg fun _ _ => rfl,
    rowDecodes_wordXY rfl decode_wordXY_sneReg fun _ _ => rfl,
    rowDecodes_wordXY rfl decode_wordXY_ldReg fun _ _ => rfl,
    rowDecodes_wordXY rfl decode_wordXY_orReg fun _ _ => rfl,
    rowDecodes_wordXY rfl decode_wordXY_andReg fun _ _ => rfl,
    rowDecodes_wordXY rfl decode_wordXY_xorReg fun _ _ => rfl,
    rowDecodes_wordXY rfl decode_wordXY_addReg fun _ _ => rfl,
    rowDecodes_wordXY rfl decode_wordXY_subReg fun _ _ => rfl,
    rowDecodes_wordXY (f := fun x _ => .shr x) rfl decode_wordXY_shr fun _ _ => rfl,
    rowDecodes_wordXY rfl decode_wordXY_subnReg fun _ _ => rfl,
    rowDecodes_wordXY (f := fun x _ => .shl x) rfl decode_wordXY_shl fun _ _ => rfl, nofun⟩

theorem rowDecodes_x : ∀ q ∈ opcodeRowsX, RowDecodes q := by
  simp only [opcodeRowsX, List.forall_mem_cons]
  exact ⟨rowDecodes_wordX (y := 0x9) (n := 0xE) rfl decode_wordXK_skp fun _ => rfl,
    rowDecodes_wordX (y := 0xA) (n := 0x1) rfl decode_wordXK_sknp fun _ => rfl,
    rowDecodes_wordX (y := 0x0) (n := 0x7) rfl decode_wordXK_ldVxDt fun _ => rfl,
    rowDecodes_wordX (y := 0x0) (n := 0xA) rfl decode_wordXK_ldVxK fun _ => rfl,
    rowDecodes_wordX (y := 0x1) (n := 0x5) rfl decode_wordXK_ldDtVx fun _ => rfl,
    rowDecodes_wordX (y := 0x1) (n := 0x8) rfl decode_wordXK_ldStVx fun _ => rfl,
    rowDecodes_wordX (y := 0x1) (n := 0xE) rfl decode_wordXK_addI fun _ => rfl,
    rowDecodes_wordX (y := 0x2) (n := 0x9) rfl decode_wordXK_ldF fun _ => rfl, nofun⟩

/-- Every row of the table, format by format. -/
theorem rowDecodes_of_mem {q : OpcodeRow} (h : q ∈ opcodeTable) : RowDecodes q := by
  simp only [opcodeTable, List.mem_append] at h
  rcases h with (h | h) | h
  · exact rowDecodes_wide q h
  · exact rowDecodes_xy q h
  · exact rowDecodes_x q h

/-- The word of every instruction matches the row of its mnemonic (R74). -/
theorem encode_matches_its_row (i : Instr) :
    ∃ r ∈ opcodeTable, r.mnemonic = i.mnemonic ∧ r.matchesWord (encode i) = true := by
  cases i with
  | sys addr => exact Laws.EncodingCarriesItsRow.sys addr
  | cls => exact Laws.EncodingCarriesItsRow.cls
  | ret => exact Laws.EncodingCarriesItsRow.ret
  | jp addr => exact Laws.EncodingCarriesItsRow.jp addr
  | call addr => exact Laws.EncodingCarriesItsRow.call addr
  | seByte x byte => exact Laws.EncodingCarriesItsRow.seByte x byte
  | sneByte x byte => exact Laws.EncodingCarriesItsRow.sneByte x byte
  | seReg x y => exact Laws.EncodingCarriesItsRow.seReg x y
  | sneReg x y => exact Laws.EncodingCarriesItsRow.sneReg x y
  | ldByte x byte => exact Laws.EncodingCarriesItsRow.ldByte x byte
  | addByte x byte => exact Laws.EncodingCarriesItsRow.addByte x byte
  | ldReg x y => exact Laws.EncodingCarriesItsRow.ldReg x y
  | orReg x y => exact Laws.EncodingCarriesItsRow.orReg x y
  | andReg x y => exact Laws.EncodingCarriesItsRow.andReg x y
  | xorReg x y => exact Laws.EncodingCarriesItsRow.xorReg x y
  | addReg x y => exact Laws.EncodingCarriesItsRow.addReg x y
  | subReg x y => exact Laws.EncodingCarriesItsRow.subReg x y
  | shr x => exact Laws.EncodingCarriesItsRow.shr x
  | subnReg x y => exact Laws.EncodingCarriesItsRow.subnReg x y
  | shl x => exact Laws.EncodingCarriesItsRow.shl x
  | ldI addr => exact Laws.EncodingCarriesItsRow.ldI addr
  | jpV0 addr => exact Laws.EncodingCarriesItsRow.jpV0 addr
  | rnd x byte => exact Laws.EncodingCarriesItsRow.rnd x byte
  | drw x y n => exact Laws.EncodingCarriesItsRow.drw x y n
  | skp x => exact Laws.EncodingCarriesItsRow.skp x
  | sknp x => exact Laws.EncodingCarriesItsRow.sknp x
  | ldVxDt x => exact Laws.EncodingCarriesItsRow.ldVxDt x
  | ldVxK x => exact Laws.EncodingCarriesItsRow.ldVxK x
  | ldDtVx x => exact Laws.EncodingCarriesItsRow.ldDtVx x
  | ldStVx x => exact Laws.EncodingCarriesItsRow.ldStVx x
  | addI x => exact Laws.EncodingCarriesItsRow.addI x
  | ldF x => exact Laws.EncodingCarriesItsRow.ldF x

/-- The row of a shift ignores the `y` field (R77). -/
theorem matchesWord_of_and_zero_y (m : String) {w p : Word} {op x n : Nibble}
    (hp : p = wordXY op 0 0 n) (h : wordXY op x 0x0#4 n = w &&& 0xFF0F#16) :
    (OpcodeRow.mk m 0xF00F#16 p).matchesWord w = true := by
  rw [and_zero_y, wordXY_inj] at h
  obtain ⟨hop, -, -, hn⟩ := h
  exact (matchesWord_op_n m w p hp).mpr ⟨hop.symm, hn.symm⟩

/-- A word that decodes to an instruction matches the row of its mnemonic. -/
theorem decoded_matches_its_row {w : Word} {i : Instr} (h : decode w = .instr i) :
    ∃ r ∈ opcodeTable, r.mnemonic = i.mnemonic ∧ r.matchesWord w = true := by
  obtain ⟨-, hword, hshift⟩ := decode_carries h
  by_cases hs : ∃ x, i = .shr x ∨ i = .shl x
  · have hw := hshift hs
    obtain ⟨x, rfl | rfl⟩ := hs
    · exact ⟨⟨"SHR_Vx", 0xF00F, 0x8006⟩, by decide, rfl, matchesWord_of_and_zero_y _ rfl hw⟩
    · exact ⟨⟨"SHL_Vx", 0xF00F, 0x800E⟩, by decide, rfl, matchesWord_of_and_zero_y _ rfl hw⟩
  · have hw := hword fun x => not_or.mp (not_exists.mp hs x)
    exact hw ▸ encode_matches_its_row i

/-- `UNDEF` carries the word itself. -/
theorem eq_of_decode_undef {w u : Word} (h : decode w = .undef u) : u = w := by
  unfold decode decode8 decodeE decodeF at h
  repeat' split at h
  all_goals cases h
  all_goals rfl

/-- Settles O37: the row of a decoded instruction matches, and whatever row matches decodes to its
own instruction, `SYS` apart. -/
theorem decoderAgreesWithTheOpcodeTable : Obligations.DecoderAgreesWithTheOpcodeTable := by
  intro w
  refine ⟨⟨fun hundef q hq => ?noRow, fun hnone => ?undef⟩,
    fun i hi => ⟨decoded_matches_its_row hi, fun q hq hm => ?sameRow⟩⟩
  case noRow =>
    by_contra hm
    obtain ⟨i, hi, -⟩ := rowDecodes_of_mem hq w (Bool.eq_true_of_not_eq_false hm)
    rw [hundef] at hi
    cases hi
  case undef =>
    cases hd : decode w with
    | undef u => rw [eq_of_decode_undef hd]
    | instr i =>
      obtain ⟨r, hr, -, hm⟩ := decoded_matches_its_row hd
      rw [hnone r hr] at hm
      cases hm
  case sameRow =>
    obtain ⟨j, hj, hrow⟩ := rowDecodes_of_mem hq w hm
    rw [hi] at hj
    cases hj
    exact hrow

/-- Settles O34: fourteen closed words, evaluated. -/
theorem sampleWordsDecode : Obligations.SampleWordsDecode := by
  unfold Obligations.SampleWordsDecode
  decide

end Sys2Proof
end

section
/-! PROOFS. What an instruction can change: its effect up to the values written, and the frames that
follow (10_state.md, 20_memory.md). -/

namespace Sys2Proof.Machine

/-! ### The effect of an instruction -/

/-- The next states an instruction can answer, up to the values it writes: one constructor per kind
of update, with the rows of R23 and R25 it belongs to. -/
inductive Effect (s : State) : Instr → State → Prop where
  | noOp (addr : Addr) : Effect s (.sys addr) s.advance
  | result {i : Instr} (x : Nibble) (b : Byte) (hw : writesOf i = [x]) (hm : pcMove i = .oneSlot) :
      Effect s i (s.writeV x b).advance
  | flagged {i : Instr} (x : Nibble) (f b : Byte) (hw : writesOf i = [vf, x])
      (hm : pcMove i = .oneSlot) : Effect s i (s.writeFlagResult x f b).advance
  | random (x : Nibble) (byte b : Byte) (draws : List Byte) (ctr : Nat) :
      Effect s (.rnd x byte) (State.writeV { s with draws := draws, freeCtr := ctr } x b).advance
  | skips {i : Instr} (c : Bool) (hm : pcMove i = .skip) : Effect s i (s.skipIf c)
  | jumps {i : Instr} (p : Word) (hm : pcMove i = .sets) : Effect s i (s.setPc p)
  | calls (addr : Addr) (hsp : s.sp ≠ 15) :
      Effect s (.call addr) ((s.push s.pc).setPc (zextAddr addr))
  | returns (hsp : s.sp ≠ 0) :
      Effect s .ret ((s.setPc (s.stackEntry s.sp + config.retPcOffset)).pop)
  | setsIndex {i : Instr} (a : Word)
      (hi : (∃ addr, i = .ldI addr) ∨ (∃ x, i = .addI x) ∨ ∃ x, i = .ldF x) :
      Effect s i (s.setI a).advance
  | setsDelay (x : Nibble) : Effect s (.ldDtVx x) (s.setDt (s.readV x)).advance
  | setsSound (x : Nibble) : Effect s (.ldStVx x) (s.setSt (s.readV x)).advance
  | clears : Effect s .cls (s.setFb (Vector.replicate 32 0)).advance
  | draws (x y n : Nibble) (fb : Framebuffer) (flag : Byte) (k : Nat) :
      Effect s (.drw x y n) (((s.setFb fb).writeV vf flag).useFree k).advance
  | waits (x : Nibble) : Effect s (.ldVxK x) { s with kb := s.kp, wx := x, phase := .waitKey }

/-- Whenever `exec` answers a next state, it is one of these. -/
theorem effect_of_exec {i : Instr} {s t : State} (h : exec i s = .next t) : Effect s i t := by
  cases i with
  | sys addr => cases h; exact .noOp addr
  | cls => cases h; exact .clears
  | ret => obtain ⟨hsp, rfl⟩ := exec_ret_cases h; exact .returns hsp
  | jp addr | jpV0 addr => cases h; exact .jumps _ rfl
  | call addr => obtain ⟨hsp, rfl⟩ := exec_call_cases h; exact .calls addr hsp
  | seByte x byte | sneByte x byte | seReg x y | sneReg x y => cases h; exact .skips _ rfl
  | skp x => obtain ⟨-, rfl⟩ := exec_skp_cases h; exact .skips _ rfl
  | sknp x => obtain ⟨-, rfl⟩ := exec_sknp_cases h; exact .skips _ rfl
  | ldByte x _ | addByte x _ | ldReg x _ | orReg x _ | andReg x _ | xorReg x _ | ldVxDt x =>
    cases h; exact .result x _ rfl rfl
  | addReg x _ | subReg x _ | subnReg x _ | shr x | shl x => cases h; exact .flagged x _ _ rfl rfl
  | rnd x byte =>
    obtain ⟨draws, ctr, hd⟩ := s.takeDraw_state
    rw [exec_rnd, hd] at h
    cases h
    exact .random x byte _ draws ctr
  | drw x y n => obtain ⟨fb, flag, k, rfl⟩ := exec_drw_cases h; exact .draws x y n fb flag k
  | ldVxK x => cases h; exact .waits x
  | ldDtVx x => cases h; exact .setsDelay x
  | ldStVx x => cases h; exact .setsSound x
  | ldI addr => cases h; exact .setsIndex _ (.inl ⟨addr, rfl⟩)
  | addI x => cases h; exact .setsIndex _ (.inr (.inl ⟨x, rfl⟩))
  | ldF x => cases h; exact .setsIndex _ (.inr (.inr ⟨x, rfl⟩))

section
variable {i : Instr} {s t : State}

/-- No effect reaches memory, the driver's slots, the pressed keys, or the record of the last
accepted word (R36, R53, R66; log 23). -/
theorem Effect.frame (e : Effect s i t) :
    t.mem = s.mem ∧ t.prog = s.prog ∧ t.kp = s.kp ∧ t.accepted = s.accepted := by
  cases e with
  | skips c _ => rw [State.skipIf_eq]; exact ⟨rfl, rfl, rfl, rfl⟩
  | _ => exact ⟨rfl, rfl, rfl, rfl⟩

/-- The general registers outside the row of R23 keep their values. -/
theorem Effect.readV (e : Effect s i t) {r : Nibble} (hr : r ∉ writesOf i) :
    t.readV r = s.readV r := by
  cases e with
  | result x b hw _ =>
    rw [hw] at hr
    exact s.readV_writeV_ne b (List.ne_of_not_mem_cons hr)
  | flagged x f b hw _ =>
    rw [hw] at hr
    obtain ⟨hvf, hx⟩ := List.ne_and_not_mem_of_not_mem_cons hr
    exact s.readV_writeFlagResult_ne f b hvf (List.ne_of_not_mem_cons hx)
  | random x byte b draws ctr => exact State.readV_writeV_ne _ b (List.ne_of_not_mem_cons hr)
  | draws x y n fb flag k =>
    exact (s.setFb fb).readV_writeV_ne flag (List.ne_of_not_mem_cons hr)
  | skips c _ => exact s.skipIf_readV c r
  | _ => rfl

/-- Only a `CALL` changes the stack, and at the incremented stack pointer, so `STK[0]` stays (R31,
R103). -/
theorem Effect.stackEntry_zero (e : Effect s i t) : t.stackEntry 0 = s.stackEntry 0 := by
  cases e with
  | calls addr hsp =>
    refine s.stackEntry_push_ne s.pc fun h0 => ?_
    have hsucc := s.sp_push_toNat s.pc hsp
    rw [State.push_sp, ← h0] at hsucc
    cases hsucc
  | skips c _ => exact s.skipIf_stackEntry c 0
  | _ => rfl

end

/-! ### The obligations -/

/-- Settles O39: the frame of the effect. -/
theorem noInstructionWritesMemory : Obligations.NoInstructionWritesMemory := by
  intro i s t h
  obtain ⟨hmem, hprog, -, -⟩ := (effect_of_exec h).frame
  exact ⟨fun a => by rw [hmem], hprog⟩

/-- Settles O40: the registers outside the effect's row. -/
theorem onlyTheListedRegistersAreWritten : Obligations.OnlyTheListedRegistersAreWritten :=
  fun _ _ _ h _ hr => (effect_of_exec h).readV hr

/-- Settles O41: each kind of effect names the fields it changes. -/
theorem eachSpecialRegisterHasItsWriters : Obligations.EachSpecialRegisterHasItsWriters := by
  intro i s t h
  cases effect_of_exec h with
  | setsIndex a hi => simp [hi]
  | _ => simp

/-- Settles O42: the kinds of effect, by their row of R25. -/
theorem programCounterMovesBySlots : Obligations.ProgramCounterMovesBySlots := by
  intro i s t h
  cases effect_of_exec h with
  | result x b _ hm => simp [hm]
  | flagged x f b _ hm => simp [hm]
  | jumps p hm => simp [hm]
  | skips c hm => cases c <;> simp [hm]
  | setsIndex a hi => obtain ⟨_, rfl⟩ | ⟨_, rfl⟩ | ⟨_, rfl⟩ := hi <;> simp [pcMove]
  | _ => simp [pcMove]

end Sys2Proof.Machine
end

section
/-! PROOFS. `DRW` case by case: the broken bound, the wide draw, height 0, and the draw inside the
display pixel by pixel (44_display.md). -/

namespace Sys2Proof.Machine

/-! ### The three cases of a draw -/

section
variable {s : State} {x y n : Nibble} {strip : List (DisplayRow × Byte)}

theorem exec_drw_error {f : Fault}
    (h : spriteStrip s.mem s.i.toNat (s.readV y).toNat n.toNat = .error f) :
    exec (.drw x y n) s = .fault f := by
  simp only [exec_drw, execDrw, h, raise]

theorem exec_drw_wide (h : spriteStrip s.mem s.i.toNat (s.readV y).toNat n.toNat = .ok strip)
    (hw : n.toNat > 0 ∧ (s.readV x).toNat > 56) :
    exec (.drw x y n) s = .next (((s.setFb (drawWide s.freeCtr strip s.fb)).writeV vf
      (Config.freeFlag s.freeCtr)).useFree strip.length).advance := by
  simp only [exec_drw, execDrw, h, if_pos hw]

theorem exec_drw_narrow (h : spriteStrip s.mem s.i.toNat (s.readV y).toNat n.toNat = .ok strip)
    (hw : ¬(n.toNat > 0 ∧ (s.readV x).toNat > 56)) :
    exec (.drw x y n) s = .next ((s.setFb (drawStrip (s.readV x).toNat strip s.fb).1).writeV vf
      (flagBit (drawStrip (s.readV x).toNat strip s.fb).2)).advance := by
  simp only [exec_drw, execDrw, h, if_neg hw]

end

/-! ### Bounds -/

section
variable {s : State} {x y n : Nibble} {k : Nat}

theorem not_breaksBound_iff :
    ¬BreaksBound s y k ↔ s.i.toNat + k < 4096 ∧ (s.readV y).toNat + k < 32 := by
  simp [BreaksBound]

/-- The lowest row offset that breaks a bound decides the fault, the memory bound first (R164,
R209). -/
theorem exec_drw_broken (hk : k < n.toNat) (hb : BreaksBound s y k)
    (hlow : ∀ j < k, ¬BreaksBound s y j) :
    exec (.drw x y n) s = .fault (if 4096 ≤ s.i.toNat + k then .addressFault .mem (s.i.toNat + k)
      else .addressFault .displayRow ((s.readV y).toNat + k)) := by
  obtain ⟨hmem, hrow⟩ := spriteStrip_error s.mem k n.toNat s.i.toNat (s.readV y).toNat hk
    fun j hj => not_breaksBound_iff.mp (hlow j hj)
  split
  · rename_i h; exact exec_drw_error (hmem h)
  · rename_i h; exact exec_drw_error (hrow (Nat.lt_of_not_le h) (hb.resolve_left h))

/-- Where some row offset below `n` breaks a bound, there is a lowest one. -/
theorem exists_lowest_breaksBound (h : ¬InBounds s y n) :
    ∃ k < n.toNat, BreaksBound s y k ∧ ∀ j < k, ¬BreaksBound s y j := by
  classical
  have hex : ∃ k, k < n.toNat ∧ BreaksBound s y k := by simpa [InBounds] using h
  obtain ⟨hk, hb⟩ := Nat.find_spec hex
  exact ⟨Nat.find hex, hk, hb, fun j hj hbj => Nat.find_min hex hj ⟨hj.trans hk, hbj⟩⟩

/-- Inside all bounds `DRW` completes, whatever `V[x]` holds. -/
theorem exec_drw_completes (hb : InBounds s y n) : ∃ t, exec (.drw x y n) s = .next t := by
  obtain ⟨strip, hs⟩ := spriteStrip_ok_of_inBounds hb
  by_cases hw : n.toNat > 0 ∧ (s.readV x).toNat > 56
  · exact ⟨_, exec_drw_wide hs hw⟩
  · exact ⟨_, exec_drw_narrow hs hw⟩

end

/-- Settles O23: the fault of the lowest broken bound, in each of its two kinds. -/
theorem drawReportsTheLowestBrokenBound : Obligations.DrawReportsTheLowestBrokenBound := by
  intro s x y n k hk hb hlow
  rw [exec_drw_broken hk hb hlow]
  exact ⟨fun h => by rw [if_pos h], fun h => by rw [if_neg (Nat.not_le.mpr h)]⟩

/-- Settles O22: a sprite of height 0 is read whole and draws nothing. -/
theorem drawOfHeightZeroClearsTheFlag : Obligations.DrawOfHeightZeroClearsTheFlag := by
  intro s x y
  refine ⟨_, exec_drw_narrow rfl (by simp), ?flag, rfl, ?frame, rfl⟩
  case flag => exact (s.setFb s.fb).readV_writeV_same vf 0
  case frame => exact sameBut_setFb_writeV_advance s s.fb 0

/-- Settles O24: the wide draw sets rows of the sprite only. -/
theorem wideDrawChangesOnlyItsRowsAndFlag : Obligations.WideDrawChangesOnlyItsRowsAndFlag := by
  intro s x y n hb hx hn
  obtain ⟨strip, hs⟩ := spriteStrip_ok_of_inBounds hb
  have hn0 : n.toNat > 0 := Nat.pos_of_ne_zero fun h => hn (BitVec.eq_of_toNat_eq h)
  refine ⟨_, exec_drw_wide hs ⟨hn0, hx⟩, fun r hr => ?rows, rfl, ?frame, rfl⟩
  case rows =>
    exact drawWide_other s.mem n.toNat s.i.toNat (s.readV y).toNat s.freeCtr strip s.fb r hs hr
  case frame => exact sameBut_setFb_writeV_advance s _ _

/-! ### Pixels -/

/-- Bit `j` of the sprite byte lies at column `x0 + 7 - j`, and the mask has no other bit (R163). -/
theorem getLsbD_rowMask (b : Byte) {x0 j : Nat} (hx : x0 ≤ 56) (hj : j < 8) :
    (rowMask b x0).getLsbD (63 - (x0 + 7 - j)) = b.getLsbD j := by
  have hcol : 63 - (x0 + 7 - j) = 56 - x0 + j := by omega
  rw [hcol, rowMask, BitVec.getLsbD_shiftLeft, BitVec.getLsbD_setWidth, Nat.add_sub_cancel_left]
  simp [show 56 - x0 + j < 64 by omega, show j < 64 by omega]

theorem getLsbD_rowMask_outside (b : Byte) {x0 c : Nat} (hx : x0 ≤ 56) (hc : c < 64)
    (h : c < x0 ∨ x0 + 7 < c) : (rowMask b x0).getLsbD (63 - c) = false := by
  rw [rowMask, BitVec.getLsbD_shiftLeft, BitVec.getLsbD_setWidth]
  rcases h with h | h
  · rw [BitVec.getLsbD_of_ge b _ (by omega), Bool.and_false, Bool.and_false]
  · simp [show 63 - c < 56 - x0 by omega]

/-- Settles O20: the rows' exclusive or, bit by bit. -/
theorem drawTogglesExactlyTheSpritePixels : Obligations.DrawTogglesExactlyTheSpritePixels := by
  intro s x y n hb hx
  obtain ⟨fb, hit, hexec, rows, others, -⟩ := exec_drw_inside hb hx
  refine ⟨_, hexec, fun r j hr hj => ?toggled, fun r c hc h => ?kept⟩
  case toggled =>
    change fb[r].getLsbD _ = (s.fb[r].getLsbD _ ^^ _)
    rw [rows r hr, BitVec.getLsbD_xor, maskOf_eq_rowMask, getLsbD_rowMask _ hx hj]
  case kept =>
    change fb[r].getLsbD _ = s.fb[r].getLsbD _
    by_cases hr : OnSpriteRow s y n r
    · rw [rows r hr, BitVec.getLsbD_xor, maskOf_eq_rowMask,
        getLsbD_rowMask_outside _ hx hc (h.resolve_left (not_not_intro hr)), Bool.xor_false]
    · rw [others r hr]

/-! ### Drawing twice -/

/-- A row's mask meets the row it was drawn on exactly where it lit a pixel. -/
theorem mask_and_xor_ne_zero_iff (old mask : RowBits) : mask &&& (old ^^^ mask) ≠ 0 ↔
    ∃ c < 64, old.getLsbD (63 - c) = false ∧ (old ^^^ mask).getLsbD (63 - c) = true := by
  constructor
  · intro hne
    obtain ⟨k, hk, hbit⟩ : ∃ k < 64, (mask &&& (old ^^^ mask)).getLsbD k = true := by
      by_contra hnone
      refine hne (BitVec.eq_of_getLsbD_eq fun k hk => ?_)
      simpa using fun h => hnone ⟨k, hk, h⟩
    refine ⟨63 - k, by omega, ?_⟩
    rw [show 63 - (63 - k) = k by omega]
    simp only [BitVec.getLsbD_and, BitVec.getLsbD_xor] at hbit ⊢
    cases hm : mask.getLsbD k <;> simp_all
  · rintro ⟨c, hc, hoff, hon⟩ h0
    have hbit : (mask &&& (old ^^^ mask)).getLsbD (63 - c) = false := by rw [h0]; simp
    rw [BitVec.getLsbD_and, hon, Bool.and_true] at hbit
    rw [BitVec.getLsbD_xor, hoff, hbit] at hon
    cases hon

theorem flagBit_eq_one_iff (c : Bool) : flagBit c = 1 ↔ c = true := by
  cases c <;> decide

/-- `fb'` is `fb` with the rows of `on` combined with their masks by exclusive or (R163). -/
structure XorRows (on : DisplayRow → Prop) (mask : DisplayRow → RowBits) (fb fb' : Framebuffer) :
    Prop where
  rows : ∀ r, on r → fb'[r] = fb[r] ^^^ mask r
  others : ∀ r, ¬on r → fb'[r] = fb[r]

section
variable {on : DisplayRow → Prop} {mask : DisplayRow → RowBits} {fb fb' fb'' : Framebuffer}

/-- The same rows and masks twice restore the display. -/
theorem XorRows.twice (h : XorRows on mask fb fb') (h' : XorRows on mask fb' fb'') : fb'' = fb := by
  have hrow : ∀ r : DisplayRow, fb''[r] = fb[r] := fun r => by
    by_cases hr : on r
    · rw [h'.rows r hr, h.rows r hr, BitVec.xor_assoc, BitVec.xor_self, BitVec.xor_zero]
    · rw [h'.others r hr, h.others r hr]
  exact Vector.ext fun r hr => hrow ⟨r, hr⟩

/-- The masks meet the new display exactly where a pixel was turned on. -/
theorem XorRows.meets_iff_lit (h : XorRows on mask fb fb') :
    (∃ r, on r ∧ mask r &&& fb'[r] ≠ 0) ↔
      ∃ (r : DisplayRow) (c : Nat), c < 64 ∧ fb[r].getLsbD (63 - c) = false ∧
        fb'[r].getLsbD (63 - c) = true := by
  constructor
  · rintro ⟨r, hr, hmeet⟩
    rw [h.rows r hr, mask_and_xor_ne_zero_iff] at hmeet
    obtain ⟨c, hc, hoff, hon⟩ := hmeet
    exact ⟨r, c, hc, hoff, (congrArg (·.getLsbD (63 - c)) (h.rows r hr)).trans hon⟩
  · rintro ⟨r, c, hc, hoff, hon⟩
    have hr : on r := by
      by_contra hr
      rw [h.others r hr, hoff] at hon
      cases hon
    refine ⟨r, hr, ?_⟩
    rw [h.rows r hr] at hon ⊢
    exact (mask_and_xor_ne_zero_iff _ _).mpr ⟨c, hc, hoff, hon⟩

end

section
variable {s t : State} {x y n : Nibble}

/-- The bounds, rows and masks of a draw depend on `I`, memory, `V[x]` and `V[y]` only. -/
theorem inBounds_congr (hi : t.i = s.i) (hy : t.readV y = s.readV y) :
    InBounds t y n ↔ InBounds s y n := by
  simp only [InBounds, BreaksBound, hi, hy]

theorem onSpriteRow_congr (hy : t.readV y = s.readV y) (r : DisplayRow) :
    OnSpriteRow t y n r ↔ OnSpriteRow s y n r := by
  simp only [OnSpriteRow, hy]

theorem maskOf_congr (hi : t.i = s.i) (hmem : t.mem = s.mem) (hx : t.readV x = s.readV x)
    (hy : t.readV y = s.readV y) (r : DisplayRow) : maskOf t x y r = maskOf s x y r := by
  simp only [maskOf, spriteByteOf, hi, hmem, hx, hy]

/-- The draw of one sprite from a state that holds it too: the same rows, with the same masks. -/
theorem exec_drw_inside_congr (hi : t.i = s.i) (hmem : t.mem = s.mem)
    (hrx : t.readV x = s.readV x) (hry : t.readV y = s.readV y) (hb : InBounds s y n)
    (hx : (s.readV x).toNat ≤ 56) :
    ∃ (fb : Framebuffer) (hit : Bool),
      exec (.drw x y n) t = .next ((t.setFb fb).writeV vf (flagBit hit)).advance ∧
      XorRows (OnSpriteRow s y n) (maskOf s x y) t.fb fb ∧
      (hit = true ↔ ∃ r, OnSpriteRow s y n r ∧ maskOf s x y r &&& t.fb[r] ≠ 0) := by
  have hb := (inBounds_congr hi hry).mpr hb
  rw [← hrx] at hx
  obtain ⟨fb, hit, hexec, rows, others, collision⟩ := exec_drw_inside hb hx
  simp only [onSpriteRow_congr hry, maskOf_congr hi hmem hrx hry] at rows others collision
  exact ⟨fb, hit, hexec, ⟨rows, others⟩, collision⟩

end

/-- Settles O21: the second draw has the first one's rows and masks, so it restores every row, and
it collides where the first draw lit a pixel. -/
theorem drawingTwiceRestoresTheDisplay : Obligations.DrawingTwiceRestoresTheDisplay := by
  intro s x y n hxvf hyvf hb hx
  obtain ⟨fb, hit, hexec, first, -⟩ := exec_drw_inside_congr (t := s) rfl rfl rfl rfl hb hx
  obtain ⟨fb', hit', hexec', second, collision⟩ :=
    exec_drw_inside_congr (s := s) (t := ((s.setFb fb).writeV vf (flagBit hit)).advance) rfl rfl
      ((s.setFb fb).readV_writeV_ne _ hxvf) ((s.setFb fb).readV_writeV_ne _ hyvf) hb hx
  refine ⟨_, _, hexec, hexec', first.twice second, ?collides, ?flag⟩
  case collides =>
    rw [State.advance_readV, State.readV_writeV_same, flagBit_eq_one_iff, collision]
    exact first.meets_iff_lit
  case flag =>
    rw [State.advance_readV, State.readV_writeV_same]
    exact flagBit_cases hit'

end Sys2Proof.Machine
end

section
/-! PROOFS. What no instruction reads: the sound timer and the hidden state (10_state.md sections 5
and 6). -/

namespace Sys2Proof.Machine

/-- A change of the fields that no instruction reads: `ST`, the baseline, `WX`, the display sink's
frame and the record of the last accepted word. -/
structure HiddenChange where
  st : Byte → Byte := id
  kb : Word → Word := id
  wx : Nibble → Nibble := id
  frame : Option Framebuffer → Option Framebuffer := id
  accepted : Option (Word × Word) → Option (Word × Word) := id

/-- The state after the change. -/
def HiddenChange.apply (g : HiddenChange) (s : State) : State :=
  { s with
    st := g.st s.st
    kb := g.kb s.kb
    wx := g.wx s.wx
    frame := g.frame s.frame
    accepted := g.accepted s.accepted }

/-- A result with its next state changed; a fault and a refusal stay. -/
def HiddenChange.onResult (g : HiddenChange) : Result → Result
  | .next t => .next (g.apply t)
  | .fault f => .fault f
  | .refused r => .refused r

section
variable (g : HiddenChange) (s : State)

theorem HiddenChange.apply_skipIf (c : Bool) : (g.apply s).skipIf c = g.apply (s.skipIf c) := by
  cases c <;> rfl

theorem HiddenChange.apply_takeDraw :
    (g.apply s).takeDraw = (s.takeDraw.1, g.apply s.takeDraw.2) := by
  cases hd : s.draws with
  | nil => rw [s.takeDraw_free hd, (g.apply s).takeDraw_free hd]; rfl
  | cons b rest => rw [s.takeDraw_queued hd, (g.apply s).takeDraw_queued hd]; rfl

theorem exec_drw_apply (x y n : Nibble) :
    exec (.drw x y n) (g.apply s) = g.onResult (exec (.drw x y n) s) := by
  cases hs : spriteStrip s.mem s.i.toNat (s.readV y).toNat n.toNat with
  | error f => rw [exec_drw_error hs, exec_drw_error (s := g.apply s) hs]; rfl
  | ok strip =>
    by_cases hw : n.toNat > 0 ∧ (s.readV x).toNat > 56
    · rw [exec_drw_wide hs hw, exec_drw_wide (s := g.apply s) hs hw]; rfl
    · rw [exec_drw_narrow hs hw, exec_drw_narrow (s := g.apply s) hs hw]; rfl

/-- An instruction commutes with a change of the fields it does not read: `LD ST,Vx` with one that
leaves `ST`, `LD Vx,K` with one that leaves the baseline and `WX`, every other one with any. -/
theorem exec_apply (i : Instr) (hst : ∀ x, i = .ldStVx x → g.st = id)
    (hk : ∀ x, i = .ldVxK x → g.kb = id ∧ g.wx = id) :
    exec i (g.apply s) = g.onResult (exec i s) := by
  cases i with
  | ldStVx x =>
    obtain ⟨st, kb, wx, frame, accepted⟩ := g
    obtain rfl : st = id := hst x rfl
    rfl
  | ldVxK x =>
    obtain ⟨st, kb, wx, frame, accepted⟩ := g
    obtain ⟨rfl, rfl⟩ : kb = id ∧ wx = id := hk x rfl
    rfl
  | seByte x byte | sneByte x byte | seReg x y | sneReg x y =>
    exact congrArg Host.Outcome.next (g.apply_skipIf s _)
  | skp x =>
    rcases Nat.lt_or_ge 15 (s.readV x).toNat with hx | hx
    · rw [exec_skp_unknown s x hx, exec_skp_unknown (g.apply s) x hx]; rfl
    · rw [exec_skp s x hx, exec_skp (g.apply s) x hx, g.apply_skipIf]; rfl
  | sknp x =>
    rcases Nat.lt_or_ge 15 (s.readV x).toNat with hx | hx
    · rw [exec_sknp_unknown s x hx, exec_sknp_unknown (g.apply s) x hx]; rfl
    · rw [exec_sknp s x hx, exec_sknp (g.apply s) x hx, g.apply_skipIf]; rfl
  | ret =>
    by_cases hsp : s.sp = 0
    · rw [exec_ret_empty s hsp, exec_ret_empty (g.apply s) hsp]; rfl
    · rw [exec_ret s hsp, exec_ret (g.apply s) hsp]; rfl
  | call addr =>
    by_cases hsp : s.sp = 15
    · rw [exec_call_full s addr hsp, exec_call_full (g.apply s) addr hsp]; rfl
    · rw [exec_call s addr hsp, exec_call (g.apply s) addr hsp]; rfl
  | rnd x byte => rw [exec_rnd, g.apply_takeDraw]; rfl
  | drw x y n => exact exec_drw_apply g s x y n
  | _ => rfl

end

/-- The change of `ST` to `b`. -/
def HiddenChange.ofSt (b : Byte) : HiddenChange where
  st := fun _ => b

/-- The change of the hidden state (10_state.md section 6; log 23). -/
def HiddenChange.ofHidden (k : Word) (wx : Nibble) (frame : Option Framebuffer)
    (last : Option (Word × Word)) : HiddenChange where
  kb := fun _ => k
  wx := fun _ => wx
  frame := fun _ => frame
  accepted := fun _ => last

/-! ### The obligations -/

/-- Settles O45: no instruction but `LD ST,Vx` tells `ST` apart, and that one overwrites it. -/
theorem soundTimerIsReadByNoInstruction : Obligations.SoundTimerIsReadByNoInstruction := by
  intro i s b
  have commutes (hi : ∀ x, i ≠ .ldStVx x) := exec_apply (.ofSt b) s i
    (fun x hx => absurd hx (hi x)) fun _ _ => ⟨rfl, rfl⟩
  refine ⟨fun t h hi => ?next, ?overwritten, fun f h => ?fault⟩
  case next => exact (commutes hi).trans (congrArg (HiddenChange.onResult _) h)
  case overwritten =>
    rintro x rfl
    rfl
  case fault =>
    have hi : ∀ x, i ≠ .ldStVx x := by
      rintro x rfl
      cases h
    exact (commutes hi).trans (congrArg (HiddenChange.onResult _) h)

/-- Settles O46: no instruction but `LD Vx,K` tells the hidden state apart, and that one overwrites
the baseline and `WX`. -/
theorem hiddenStateIsReadByNoInstruction : Obligations.HiddenStateIsReadByNoInstruction := by
  intro i s k wx frame last
  have commutes (hi : ∀ x, i ≠ .ldVxK x) := exec_apply (.ofHidden k wx frame last) s i
    (fun _ _ => rfl) fun x hx => absurd hx (hi x)
  refine ⟨fun t h hi => ?next, fun t x h hi => ?overwritten, fun f h => ?fault⟩
  case next => exact (commutes hi).trans (congrArg (HiddenChange.onResult _) h)
  case overwritten =>
    subst hi
    cases h
    rfl
  case fault =>
    have hi : ∀ x, i ≠ .ldVxK x := by
      rintro x rfl
      cases h
    exact (commutes hi).trans (congrArg (HiddenChange.onResult _) h)

end Sys2Proof.Machine
end

section
/-! PROOFS. The faults of an instruction, exactly (60_exceptions.md section 1). -/

namespace Sys2Proof.Machine

/-- An instruction completes or raises a fault the spec gives it; none is refused (R200 to R206). -/
theorem exec_completes_or_raises (i : Instr) (s : State) :
    (∃ t, exec i s = .next t) ∨ ∃ f, exec i s = .fault f ∧ RaisesFault i s f := by
  cases i with
  | ret =>
    by_cases hsp : s.sp = 0
    · exact .inr ⟨_, exec_ret_empty s hsp, .inl ⟨rfl, hsp, rfl⟩⟩
    · exact .inl ⟨_, exec_ret s hsp⟩
  | call addr =>
    by_cases hsp : s.sp = 15
    · exact .inr ⟨_, exec_call_full s addr hsp, .inr (.inl ⟨addr, rfl, hsp, rfl⟩)⟩
    · exact .inl ⟨_, exec_call s addr hsp⟩
  | drw x y n =>
    by_cases hb : InBounds s y n
    · exact .inl (exec_drw_completes hb)
    · obtain ⟨k, hk, hbk, hlow⟩ := exists_lowest_breaksBound hb
      exact .inr ⟨_, exec_drw_broken hk hbk hlow,
        .inr (.inr (.inl ⟨x, y, n, k, rfl, hk, hbk, hlow, rfl⟩))⟩
  | skp x =>
    rcases Nat.lt_or_ge 15 (s.readV x).toNat with hx | hx
    · exact .inr ⟨_, exec_skp_unknown s x hx, .inr (.inr (.inr ⟨x, .inl rfl, hx, rfl⟩))⟩
    · exact .inl ⟨_, exec_skp s x hx⟩
  | sknp x =>
    rcases Nat.lt_or_ge 15 (s.readV x).toNat with hx | hx
    · exact .inr ⟨_, exec_sknp_unknown s x hx, .inr (.inr (.inr ⟨x, .inr rfl, hx, rfl⟩))⟩
    · exact .inl ⟨_, exec_sknp s x hx⟩
  | _ => exact .inl ⟨_, rfl⟩

/-- The faults of an instruction are exactly those the spec gives it. -/
theorem exec_eq_fault_iff {i : Instr} {s : State} {f : Fault} :
    exec i s = .fault f ↔ RaisesFault i s f := by
  constructor
  · intro h
    obtain ⟨t, ht⟩ | ⟨g, hg, hraises⟩ := exec_completes_or_raises i s
    · rw [ht] at h; cases h
    · rw [hg] at h; cases h; exact hraises
  · rintro (⟨rfl, hsp, rfl⟩ | ⟨addr, rfl, hsp, rfl⟩ | ⟨x, y, n, k, rfl, hk, hb, hlow, rfl⟩ |
      ⟨x, rfl | rfl, hx, rfl⟩)
    · exact exec_ret_empty s hsp
    · exact exec_call_full s addr hsp
    · exact exec_drw_broken hk hb hlow
    · exact exec_skp_unknown s x hx
    · exact exec_sknp_unknown s x hx

/-- No instruction is refused. -/
theorem exec_ne_refused (i : Instr) (s : State) (r : Refusal) : exec i s ≠ .refused r := by
  obtain ⟨t, h⟩ | ⟨f, h, -⟩ := exec_completes_or_raises i s
  all_goals
    rw [h]
    nofun

/-- Settles O43: the faults of `RaisesFault`; a `DRW` with a broken bound has a lowest one. -/
theorem faultsExactlyWhenTheSpecSays : Obligations.FaultsExactlyWhenTheSpecSays := by
  intro i s
  simp only [exec_eq_fault_iff]
  constructor
  · rintro ⟨f, ⟨hi, hsp, -⟩ | ⟨addr, hi, hsp, -⟩ | ⟨x, y, n, k, hi, hk, hb, -⟩ | ⟨x, hi, hx, -⟩⟩
    · exact .inl ⟨hi, hsp⟩
    · exact .inr (.inl ⟨addr, hi, hsp⟩)
    · exact .inr (.inr (.inl ⟨x, y, n, hi, k, hk, hb⟩))
    · exact .inr (.inr (.inr ⟨x, hi, hx⟩))
  · rintro (⟨hi, hsp⟩ | ⟨addr, hi, hsp⟩ | ⟨x, y, n, hi, k, hk, hb⟩ | ⟨x, hi, hx⟩)
    · exact ⟨_, .inl ⟨hi, hsp, rfl⟩⟩
    · exact ⟨_, .inr (.inl ⟨addr, hi, hsp, rfl⟩)⟩
    · obtain ⟨k, hk, hb, hlow⟩ := exists_lowest_breaksBound fun hin => hin k hk hb
      exact ⟨_, .inr (.inr (.inl ⟨x, y, n, k, hi, hk, hb, hlow, rfl⟩))⟩
    · exact ⟨_, .inr (.inr (.inr ⟨x, hi, hx, rfl⟩))⟩

end Sys2Proof.Machine
end

section
/-! PROOFS. What a step can do, in two kinds: it executes a word, or it does not; the reset, the
invariant and the timers (10_state.md sections 5 and 7, 60_exceptions.md,
70_reset_and_hazards.md). -/

namespace Sys2Proof.Machine

/-! ### The two kinds of step -/

/-- The state with the next action taken off the schedule. -/
def State.taken (s : State) : State := { s with schedule := s.schedule.tail }

theorem State.taken_of_idle {s : State} (h : s.schedule = []) : s.taken = s := by
  simp only [State.taken, h, List.tail_nil]
  rw [← h]

theorem State.taken_of_scheduled {s : State} {a : Action} {rest : List Action}
    (h : s.schedule = a :: rest) : s.taken = { s with schedule := rest } := by
  simp only [State.taken, h, List.tail_cons]

theorem step_taken {s : State} {a : Action} {rest : List Action} (h : s.schedule = a :: rest) :
    step s = act a s.taken := by
  rw [step_scheduled h, State.taken_of_scheduled h]

/-- Where the schedule is used up or names the engine, the step is the engine's turn (log 1). -/
theorem step_engine {s : State} (h : s.schedule = [] ∨ ∃ rest, s.schedule = .engine :: rest) :
    step s = engineTurn s.taken := by
  obtain hs | ⟨rest, hs⟩ := h
  · rw [step_idleSchedule hs, State.taken_of_idle hs]
  · exact step_taken hs

/-- A step that executes a word is that word's execution, once its turn is off the schedule. -/
theorem step_of_executes {s : State} {w : Word} (h : Executes s w) :
    step s = execWord w s.taken := by
  obtain ⟨hp, ⟨hs, hf⟩ | ⟨rest, hs⟩⟩ := h
  · exact (step_engine hs).trans (engineTurn_ready (s := s.taken) hp hf)
  · exact (step_taken hs).trans (presentWord_ready (s := s.taken) hp w)

/-- The same with the schedule written out. -/
theorem step_of_executes_scheduled {s : State} {w : Word} {a : Action} {rest : List Action}
    (h : Executes s w) (hs : s.schedule = a :: rest) :
    step s = execWord w { s with schedule := rest } := by
  rw [step_of_executes h, State.taken_of_scheduled hs]

/-- What a step that executes no word answers: a reset, the completion of a wait, or a state in
which only the pressed keys, the schedule and the display sink's frame may differ. -/
inductive StepsAside (s : State) : State → Prop where
  | resets {image : List Host.Cell} {rest : List Action} (h : s.schedule = .reset image :: rest) :
      StepsAside s (s.taken.resetBlock image)
  | completes (hp : s.phase = .waitKey) : StepsAside s s.taken.completeWait
  | outside (kp : Word) (frame : Option Framebuffer) :
      StepsAside s { s.taken with kp := kp, frame := frame }

/-- The engine's turn executes the word of slot `PC`, changes nothing, or completes a wait. -/
theorem engine_executes_or_aside {s : State}
    (h : s.schedule = [] ∨ ∃ rest, s.schedule = .engine :: rest) :
    (∃ w, Executes s w) ∨ ∃ t, step s = .next t ∧ StepsAside s t := by
  rw [step_engine h]
  cases hp : s.phase with
  | ready =>
    cases hf : s.fetch with
    | none => exact .inr ⟨_, engineTurn_empty (s := s.taken) hp hf, .outside s.kp s.frame⟩
    | some w => exact .inl ⟨w, hp, .inl ⟨h, hf⟩⟩
  | waitKey =>
    by_cases hn : s.newKeys = 0
    · exact .inr ⟨_, engineTurn_holds (s := s.taken) hp hn, .outside s.kp s.frame⟩
    · exact .inr ⟨_, engineTurn_completes (s := s.taken) hp hn, .completes hp⟩

/-- Every step executes a word or is one of the others. -/
theorem step_executes_or_aside (s : State) :
    (∃ w, Executes s w) ∨ ∃ t, step s = .next t ∧ StepsAside s t := by
  cases hs : s.schedule with
  | nil => exact engine_executes_or_aside (.inl hs)
  | cons a rest =>
    cases a with
    | engine => exact engine_executes_or_aside (.inr ⟨rest, hs⟩)
    | present w =>
      cases hp : s.phase with
      | ready => exact .inl ⟨w, hp, .inr ⟨rest, hs⟩⟩
      | waitKey =>
        exact .inr ⟨_, (step_taken hs).trans (presentWord_waiting (s := s.taken) hp w),
          .outside s.kp s.frame⟩
    | tick => exact .inr ⟨_, step_taken hs, .outside s.kp s.frame⟩
    | setPressed k => exact .inr ⟨_, step_taken hs, .outside _ s.frame⟩
    | setUnpressed k => exact .inr ⟨_, step_taken hs, .outside _ s.frame⟩
    | snapshot => exact .inr ⟨_, step_taken hs, .outside s.kp _⟩
    | reset image => exact .inr ⟨_, step_taken hs, .resets hs⟩

/-- What a step that answers a next state did: it passed over an unmatched word, or ran an
instruction to its effect, or executed none. -/
theorem step_next_cases {s t : State} (h : step s = .next t) :
    (∃ w u, Executes s w ∧ decode w = .undef u ∧ t = (s.taken.accept w).advance) ∨
    (∃ w i, Executes s w ∧ decode w = .instr i ∧ Effect (s.taken.accept w) i t) ∨
    StepsAside s t := by
  obtain ⟨w, hw⟩ | ⟨t', ht, haside⟩ := step_executes_or_aside s
  · rw [step_of_executes hw] at h
    obtain ⟨u, hd, rfl⟩ | ⟨i, hd, h⟩ := execWord_cases h
    · exact .inl ⟨w, u, hw, hd, rfl⟩
    · exact .inr (.inl ⟨w, i, hw, hd, effect_of_exec h⟩)
  · rw [ht] at h
    cases h
    exact .inr (.inr haside)

/-! ### The reset -/

/-- With no image a reset of the reset state is the reset state. -/
theorem State.resetBlock_reset : State.reset.resetBlock [] = State.reset := rfl

/-- Memory after a reset holds the font (R56, R58). -/
theorem Memory.byteAt_ofImage_glyph (image : List Host.Cell) (d : Fin 16) (j : Fin 5) :
    (Memory.ofImage image).byteAt (config.fontBase + 5 * d.val + j.val) =
      config.fontGlyphs[d][j] := by
  rw [Memory.byteAt_ofImage_font image (by rw [fontByte_glyph]; nofun)]
  exact Memory.byteAt_reset_font d j

/-- A reset meets the invariant, from any state and with any image. -/
theorem State.resetBlock_inv (s : State) (image : List Host.Cell) : (s.resetBlock image).Inv where
  memory := Memory.wf_ofImage image
  font := Memory.byteAt_ofImage_glyph image
  stackBottom := show State.reset.stackEntry 0 = 0 by decide
  waiting := nofun

/-! ### The invariant -/

/-- The invariant rests on memory, `STK[0]` and the pending wait. -/
theorem State.Inv.of_eq {s t : State} (hs : s.Inv) (hmem : t.mem = s.mem)
    (hstk : t.stackEntry 0 = s.stackEntry 0) (hwait : t.WaitsForItsInstruction) : t.Inv where
  memory := hmem ▸ hs.memory
  font := hmem ▸ hs.font
  stackBottom := hstk.trans hs.stackBottom
  waiting := hwait

/-- An instruction accepted in `READY` leaves a wait only if it is the `LD Vx,K` that entered it
(R188). -/
theorem Effect.waitsForItsInstruction {s t : State} {w : Word} {i : Instr} (hp : s.phase = .ready)
    (hd : decode w = .instr i) (e : Effect (s.accept w) i t) : t.WaitsForItsInstruction := by
  intro hwait
  cases e with
  | waits x => exact ⟨w, rfl, hd⟩
  | skips c _ => rw [State.skipIf_phase] at hwait; exact absurd (hp.symm.trans hwait) nofun
  | _ => exact absurd (hp.symm.trans hwait) nofun

/-! ### The timers -/

section
variable {i : Instr} {s t : State}

/-- Only `LD DT,Vx` changes the delay timer, to `V[x]` (R32). -/
theorem Effect.dt (e : Effect s i t) : t.dt = s.dt ∨ ∃ x, i = .ldDtVx x ∧ t.dt = s.readV x := by
  cases e with
  | setsDelay x => exact .inr ⟨x, rfl, rfl⟩
  | skips c _ => exact .inl (s.skipIf_dt c)
  | _ => exact .inl rfl

/-- Only `LD ST,Vx` changes the sound timer, to `V[x]` (R33). -/
theorem Effect.st (e : Effect s i t) : t.st = s.st ∨ ∃ x, i = .ldStVx x ∧ t.st = s.readV x := by
  cases e with
  | setsSound x => exact .inr ⟨x, rfl, rfl⟩
  | skips c _ => exact .inl (s.skipIf_st c)
  | _ => exact .inl rfl

/-- A step that executes no word changes the timers only where it is a reset, which clears them. -/
theorem StepsAside.timers (h : StepsAside s t) : t.dt = s.dt ∧ t.st = s.st ∨
    (∃ image rest, s.schedule = .reset image :: rest) ∧ t.dt = 0 ∧ t.st = 0 := by
  cases h with
  | resets h => exact .inr ⟨⟨_, _, h⟩, rfl, rfl⟩
  | completes _ => exact .inl ⟨rfl, rfl⟩
  | outside _ _ => exact .inl ⟨rfl, rfl⟩

end

/-! ### The obligations: the invariant and the frames of a step -/

/-- Settles O50: an instruction's effect keeps memory and `STK[0]` and enters a wait for itself
only; a reset meets the invariant; the other steps touch none of it, but for ending a wait. -/
theorem everyStepKeepsTheInvariant : Obligations.EveryStepKeepsTheInvariant := by
  intro s t hs h
  obtain ⟨w, u, ⟨hp, -⟩, -, rfl⟩ | ⟨w, i, ⟨hp, -⟩, hd, e⟩ | haside := step_next_cases h
  · exact hs.of_eq rfl rfl fun hwait => absurd (hp.symm.trans hwait) nofun
  · obtain ⟨hmem, -⟩ := e.frame
    exact hs.of_eq hmem e.stackEntry_zero (e.waitsForItsInstruction (s := s.taken) hp hd)
  · cases haside with
    | resets _ => exact State.resetBlock_inv _ _
    | completes hp => exact hs.of_eq rfl rfl nofun
    | outside kp frame => exact hs.of_eq rfl rfl hs.waiting

/-- Settles O47: a timer's change is an instruction's effect or a reset. -/
theorem timersHoldTheirValue : Obligations.TimersHoldTheirValue := by
  intro s t h
  obtain ⟨w, u, -, -, rfl⟩ | ⟨w, i, hw, hd, e⟩ | haside := step_next_cases h
  · exact ⟨fun hne => absurd rfl hne, fun hne => absurd rfl hne⟩
  · refine ⟨fun hne => ?_, fun hne => ?_⟩
    · obtain ⟨x, rfl, hx⟩ := e.dt.resolve_left hne
      exact .inr ⟨w, x, hw, hd, hx⟩
    · obtain ⟨x, rfl, hx⟩ := e.st.resolve_left hne
      exact .inr ⟨w, x, hw, hd, hx⟩
  · obtain ⟨hdt, hst⟩ | ⟨hreset, hdt, hst⟩ := haside.timers
    · exact ⟨fun hne => absurd hdt hne, fun hne => absurd hst hne⟩
    · exact ⟨fun _ => .inl ⟨hreset, hdt⟩, fun _ => .inl ⟨hreset, hst⟩⟩

/-- Settles O48: an instruction's frame; of the other steps only a reset touches memory. -/
theorem stepsKeepMemoryAndProgram : Obligations.StepsKeepMemoryAndProgram := by
  intro s t h
  suffices t.prog = s.prog ∧
      ((∀ image rest, s.schedule ≠ .reset image :: rest) → t.mem = s.mem) by
    obtain ⟨hprog, hmem⟩ := this
    exact ⟨hprog, fun hno => ⟨hmem hno, fun a => by rw [hmem hno]⟩⟩
  obtain ⟨w, u, -, -, rfl⟩ | ⟨w, i, -, -, e⟩ | haside := step_next_cases h
  · exact ⟨rfl, fun _ => rfl⟩
  · obtain ⟨hmem, hprog, -, -⟩ := e.frame
    exact ⟨hprog, fun _ => hmem⟩
  · cases haside with
    | resets hs => exact ⟨rfl, fun hno => absurd hs (hno _ _)⟩
    | completes _ => exact ⟨rfl, fun _ => rfl⟩
    | outside _ _ => exact ⟨rfl, fun _ => rfl⟩

/-- Executing a word is not refused: an unmatched one is a no-op, as decided (D3; log 12). -/
theorem execWord_ne_refused (w : Word) (s : State) (r : Refusal) : execWord w s ≠ .refused r := by
  cases hd : decode w with
  | undef u => rw [execWord_undef hd]; nofun
  | instr i => rw [execWord_instr hd]; exact exec_ne_refused i _ r

/-- Settles O44: an instruction completes or faults, and a step that executes no word completes. -/
theorem nothingIsRefused : Obligations.NothingIsRefused := by
  refine ⟨exec_ne_refused, fun s r => ?_⟩
  obtain ⟨w, hw⟩ | ⟨t, ht, -⟩ := step_executes_or_aside s
  · rw [step_of_executes hw]
    exact execWord_ne_refused w _ r
  · rw [ht]
    nofun

/-! ### The obligations: reset -/

/-- Settles O1: the fields of the reset state; every entry of a replicated vector is 0. -/
theorem resetGivesTheResetValues : Obligations.ResetGivesTheResetValues := by
  refine ⟨State.resetBlock_reset, fun s image => ⟨fun x => ?v, rfl, rfl, rfl, fun j => ?stk, rfl,
    rfl, fun r => ?fb, rfl, rfl, rfl, rfl⟩⟩
  case v => exact Vector.getElem_replicate x.isLt
  case stk => exact Vector.getElem_replicate j.toNat_lt
  case fb => exact Vector.getElem_replicate r.isLt

/-- Settles O2: the laws of the image, on and off the font. -/
theorem resetMemoryIsTheFontOverTheImage : Obligations.ResetMemoryIsTheFontOverTheImage :=
  fun _ image => ⟨Memory.wf_ofImage image, Memory.byteAt_ofImage_glyph image,
    fun a ha hoff => Memory.byteAt_ofImage image ha ((fontByte_eq_none_iff a).mpr hoff)⟩

/-- Settles O3: the scheduled reset is the whole step. -/
theorem resetActionEndsAnyWait : Obligations.ResetActionEndsAnyWait :=
  fun _ _ _ hs => ⟨_, step_scheduled hs, rfl, rfl, rfl, rfl, rfl⟩

/-- Settles O49: the reset state is a reset of itself. -/
theorem resetMeetsTheInvariant : Obligations.ResetMeetsTheInvariant :=
  State.reset.resetBlock_inv []

/-! ### The obligations: one step -/

/-- Settles O25: the scheduled snapshot is the whole step. -/
theorem snapshotLeavesTheBlockAlone : Obligations.SnapshotLeavesTheBlockAlone :=
  fun _ _ hs => step_scheduled hs

/-- Settles O52: the scheduled tick is the whole step, and it is absent. -/
theorem absentTickChangesNothing : Obligations.AbsentTickChangesNothing :=
  ⟨rfl, fun _ _ hs => step_scheduled hs⟩

/-- Settles O31: the turns that execute a word, and that word's instruction. -/
theorem stepRunsTheDecodedInstruction : Obligations.StepRunsTheDecodedInstruction := by
  intro s
  refine ⟨step_idleSchedule, fun _ hs => step_scheduled hs, fun w i hp hd =>
    ⟨fun hf => ⟨?turn, fun hs => (step_idleSchedule hs).trans ?turn, fun rest hs => ?engine⟩,
      fun rest hs => ?presented⟩⟩
  case turn => exact (engineTurn_ready hp hf).trans (execWord_instr hd s)
  case engine =>
    exact (step_of_executes_scheduled ⟨hp, .inl ⟨.inr ⟨rest, hs⟩, hf⟩⟩ hs).trans
      (execWord_instr hd _)
  case presented =>
    exact (step_of_executes_scheduled ⟨hp, .inr ⟨rest, hs⟩⟩ hs).trans (execWord_instr hd _)

/-- Settles O32: the turns that execute a word, where the word is unmatched. -/
theorem unmatchedWordsAreNoOps : Obligations.UnmatchedWordsAreNoOps := by
  intro s w hp hd
  refine ⟨fun hf => ⟨?turn, fun hs => (step_idleSchedule hs).trans ?turn, fun rest hs => ?engine⟩,
    fun rest hs => ?presented⟩
  case turn => exact (engineTurn_ready hp hf).trans (execWord_undef hd s)
  case engine =>
    exact (step_of_executes_scheduled ⟨hp, .inl ⟨.inr ⟨rest, hs⟩, hf⟩⟩ hs).trans
      (execWord_undef hd _)
  case presented =>
    exact (step_of_executes_scheduled ⟨hp, .inr ⟨rest, hs⟩⟩ hs).trans (execWord_undef hd _)

/-- Settles O33: the engine's turn at an empty slot. -/
theorem emptySlotChangesNothing : Obligations.EmptySlotChangesNothing := by
  intro s hp hf
  have hturn := engineTurn_empty hp hf
  refine ⟨by simp [State.ended, hp, hf], hturn, fun hs => (step_idleSchedule hs).trans hturn,
    fun rest hs => (step_scheduled hs).trans ?_⟩
  exact engineTurn_empty (s := { s with schedule := rest }) hp hf

end Sys2Proof.Machine
end

section
/-! PROOFS. The remaining results of single instructions: subtraction and random draws, the stack,
the key skips, the index register (40_flow.md to 45_keyboard.md). -/

namespace Sys2Proof.Machine

/-! ### Subtraction and random draws -/

/-- The magnitude does not depend on the order of its operands. -/
theorem magnitude_comm (a b : Byte) : magnitude a b = magnitude b a := by
  rw [magnitude_eq, magnitude_eq, Nat.max_comm, Nat.min_comm]

/-- Settles O6: both write the no-borrow flag, then the magnitude, and advance. -/
theorem subtractionLeavesTheMagnitude : Obligations.SubtractionLeavesTheMagnitude := by
  intro s x y
  rw [← magnitude_eq, ← noBorrowFlag_eq, ← noBorrowFlag_eq]
  refine ⟨writesFlagAndRegister_of_exec (exec_subReg s x y), ?subn⟩
  case subn =>
    rw [magnitude_comm]
    exact writesFlagAndRegister_of_exec (exec_subnReg s x y)

/-- A `RND` that draws `r` and leaves `s'`: the masked draw in `V[x]` and an advance (R144). -/
theorem exec_rnd_of_takeDraw {s s' : State} {r : Byte} (x : Nibble) (byte : Byte)
    (h : s.takeDraw = (r, s')) :
    exec (.rnd x byte) s = .next (s'.writeV x (r &&& byte)).advance := by
  rw [exec_rnd, h]

/-- One register write and an advance, from a state with the registers and memory of `s`. -/
theorem sameBut_writeV_advance {s s' : State} (x : Nibble) (b : Byte) (hv : s'.v = s.v)
    (hmem : s'.mem = s.mem) : SameBut [x] s (s'.writeV x b).advance := by
  refine ⟨fun r hr => ?_, fun a => congrArg (·.byteAt a) hmem⟩
  rw [State.advance_readV, s'.readV_writeV_ne b (List.ne_of_not_mem_cons hr)]
  simp only [State.readV, hv]

/-- Settles O7: the two cases of the draw. -/
theorem randomMasksOneDraw : Obligations.RandomMasksOneDraw := by
  intro s x byte
  refine ⟨decode_wordXK_rnd x byte, fun r rest hd => ?queued, fun hd => ?free⟩
  case queued =>
    exact ⟨_, exec_rnd_of_takeDraw x byte (s.takeDraw_queued hd),
      State.readV_writeV_same _ x _, rfl, sameBut_writeV_advance x _ rfl rfl, rfl⟩
  case free =>
    exact ⟨_, _, exec_rnd_of_takeDraw x byte (s.takeDraw_free hd),
      State.readV_writeV_same _ x _, rfl, sameBut_writeV_advance x _ rfl rfl, rfl⟩

/-! ### The stack -/

/-- Settles O10: above `SP = 0` the next state is a jump and a pop; at 0 the guard answers. -/
theorem retPopsTheSavedSlot : Obligations.RetPopsTheSavedSlot := by
  intro s
  exact ⟨exec_ret_empty s, fun hsp => ⟨_, exec_ret s hsp, s.sp_pop_toNat hsp, rfl,
    ⟨fun _ _ => rfl, fun _ => rfl⟩, rfl⟩⟩

/-- Short of 15 the incremented stack pointer is above every index at or below the old one. -/
theorem StackPointer.lt_succ_of_le {p j : StackPointer} (hp : p ≠ 15) (hj : j ≤ p) : j < p + 1 := by
  have h15 : p.toNat ≠ 15 := fun e => hp (BitVec.eq_of_toNat_eq e)
  have hlt := p.toNat_lt
  have hle : j.toNat ≤ p.toNat := hj
  rw [BitVec.lt_def, StackPointer.toNat_succ]
  omega

/-- A push leaves the entries at or below the old depth. -/
theorem State.stackEntry_push_of_le (s : State) (p : Word) (hsp : s.sp ≠ 15) {j : StackPointer}
    (hj : j ≤ s.sp) : (s.push p).stackEntry j = s.stackEntry j :=
  s.stackEntry_push_ne p (BitVec.ne_of_lt (StackPointer.lt_succ_of_le hsp hj))

theorem execAll_cons_next {i : Instr} {rest : List Instr} {s t : State} (h : exec i s = .next t) :
    execAll (i :: rest) s = execAll rest t := by
  simp only [execAll, h]

theorem execAll_cons_fault {i : Instr} {rest : List Instr} {s : State} {f : Fault}
    (h : exec i s = .fault f) : execAll (i :: rest) s = .fault f := by
  simp only [execAll, h]

/-- Settles O11: the popped slot is the one just pushed, and the push wrote above the old depth. -/
theorem returnLandsOnTheCall : Obligations.ReturnLandsOnTheCall := by
  intro s addr hsp
  have hdeeper : s.sp + 1 ≠ 0 := fun h0 => by
    have hsucc := s.sp_push_toNat s.pc hsp
    rw [State.push_sp, h0] at hsucc
    cases hsucc
  refine ⟨_, (execAll_cons_next (exec_call s addr hsp)).trans
    (execAll_cons_next (exec_ret _ hdeeper)), ?pc, ?sp, fun j hj => ?kept, ?frame⟩
  case pc => exact congrArg (· + config.retPcOffset) (s.stackEntry_push_same s.pc)
  case sp => exact s.sp_pop_push s.pc
  case kept => exact s.stackEntry_push_of_le s.pc hsp hj
  case frame =>
    exact State.ext_fields rfl rfl rfl (s.sp_pop_push s.pc) rfl rfl rfl rfl rfl rfl rfl rfl rfl rfl
      rfl rfl rfl rfl rfl

/-- Settles O12: by induction on the targets; a call goes one level deeper, or faults at the top. -/
theorem fifteenNestedCallsFit : Obligations.FifteenNestedCallsFit := by
  intro targets
  induction targets with
  | nil =>
    intro s
    have hlt := s.sp.toNat_lt
    exact ⟨fun _ => ⟨s, rfl, rfl, fun _ _ => rfl⟩, fun h => absurd h (by simp; omega)⟩
  | cons addr rest ih =>
    intro s
    rw [List.length_cons, List.map_cons]
    by_cases hsp : s.sp = 15
    · have h15 : s.sp.toNat = 15 := congrArg BitVec.toNat hsp
      exact ⟨fun h => by omega, fun _ => execAll_cons_fault (exec_call_full s addr hsp)⟩
    · have hcall := exec_call s addr hsp
      have hdepth : ((s.push s.pc).setPc (zextAddr addr)).sp.toNat = s.sp.toNat + 1 :=
        s.sp_push_toNat s.pc hsp
      obtain ⟨fits, overflows⟩ := ih ((s.push s.pc).setPc (zextAddr addr))
      rw [execAll_cons_next hcall]
      refine ⟨fun h => ?_, fun h => overflows (by omega)⟩
      obtain ⟨t, ht, hsp', hkept⟩ := fits (by omega)
      refine ⟨t, ht, by omega, fun j hj => ?_⟩
      exact (hkept j (BitVec.le_of_lt (StackPointer.lt_succ_of_le hsp hj))).trans
        (s.stackEntry_push_of_le s.pc hsp hj)

/-! ### The key skips -/

/-- Settles O14: up to 15 each is a skip on the key's bit, above it the guard answers. -/
theorem keySkipResults : Obligations.KeySkipResults := by
  intro s x
  refine ⟨fun hx => ⟨?skp, ?sknp⟩, fun hx => ⟨exec_skp_unknown s x hx, exec_sknp_unknown s x hx⟩,
    decode_wordXK_skp x, decode_wordXK_sknp x⟩
  case skp =>
    rw [exec_skp s x hx, s.skipIf_of_iff Iff.rfl, State.keyPressed, setWidth_four_toNat hx]
  case sknp =>
    rw [exec_sknp s x hx, s.skipIf_of_iff Iff.rfl, State.keyPressed, setWidth_four_toNat hx]
    simp

/-! ### The index register -/

theorem add_zextByte (a : Word) (b : Byte) :
    a + zextByte b = BitVec.ofNat 16 (a.toNat + b.toNat) := by
  rw [zextByte_eq_ofNat, BitVec.ofNat_add, BitVec.ofNat_toNat 16 a, BitVec.setWidth_eq]

/-- The address of a digit's glyph, as a number (R56, R152). -/
theorem digitAddress_digitOperand (s : State) (x : Nibble) : digitAddress (s.digitOperand x) =
    BitVec.ofNat 16 (config.fontBase + 5 * ((s.readV x).toNat % 16)) := by
  rw [digitAddress, State.digitOperand, BitVec.toNat_setWidth]

/-- Settles O16: the sum and the digit's address as numbers. -/
theorem indexAddAndDigitAddressResults : Obligations.IndexAddAndDigitAddressResults := by
  intro s x
  refine ⟨?addI, ?ldF⟩
  case addI =>
    rw [exec_addI, add_zextByte]
    rfl
  case ldF =>
    rw [exec_ldF, digitAddress_digitOperand]
    rfl

/-- Settles O17: the new `I` is the glyph's first address, where the invariant has the glyph. -/
theorem digitAddressPointsAtItsGlyph : Obligations.DigitAddressPointsAtItsGlyph := by
  intro s x d hs hd
  refine ⟨_, exec_ldF s x, fun j => ?_⟩
  have hi : (digitAddress (s.digitOperand x)).toNat = config.fontBase + 5 * d.val := by
    have := config_fontBase_le
    rw [digitAddress_digitOperand, ← hd, BitVec.toNat_ofNat]
    omega
  rw [← hs.font d j]
  exact congrArg (fun a => s.mem.byteAt (a + j.val)) hi

end Sys2Proof.Machine
end

section
/-! PROOFS. The wait of `LD Vx,K`: its completion, and what keeps it going (45_keyboard.md
section 4). -/

namespace Sys2Proof.Machine

/-! ### Key events while no key is new -/

section
variable {s : State} {k : Nibble}

/-- A press of a key outside the baseline makes it the only new key. -/
theorem State.getLsbD_newKeys_pressKey (hn : s.newKeys = 0) (hk : s.kb.getLsbD k.toNat = false)
    (j : Nibble) : (s.pressKey k).newKeys.getLsbD j.toNat = true ↔ j = k := by
  rw [State.getLsbD_newKeys, State.getLsbD_pressKey, State.pressKey_kb]
  by_cases hj : j = k
  · simp [hj, hk]
  · simpa [hj] using s.newKeys_eq_zero_iff.mp hn j

/-- A press of a baseline key makes no key new. -/
theorem State.newKeys_pressKey_baseline (hn : s.newKeys = 0) (hk : s.kb.getLsbD k.toNat = true) :
    (s.pressKey k).newKeys = 0 := by
  rw [State.newKeys_eq_zero_iff] at hn ⊢
  intro j hj
  rw [State.getLsbD_pressKey] at hj
  by_cases hjk : j = k
  · exact hjk ▸ hk
  · exact hn j (by rwa [if_neg hjk] at hj)

/-- A release makes no key new. -/
theorem State.newKeys_releaseKey (hn : s.newKeys = 0) : (s.releaseKey k).newKeys = 0 := by
  rw [State.newKeys_eq_zero_iff] at hn ⊢
  intro j hj
  rw [State.getLsbD_releaseKey] at hj
  by_cases hjk : j = k
  · rw [if_pos hjk] at hj
    cases hj
  · exact hn j (by rwa [if_neg hjk] at hj)

end

/-! ### The completion -/

/-- The completed wait reads as a write of the selected key to `V[WX]` (R190). -/
theorem State.completeWait_readV (s : State) (r : Nibble) : s.completeWait.readV r =
    (s.writeV s.wx ((selectKey (Config.freeChoice s.freeCtr) s.newKeys).setWidth 8)).readV r := rfl

/-- The register of the wait holds the selected key. -/
theorem State.completeWait_readV_wx (s : State) : s.completeWait.readV s.wx =
    BitVec.ofNat 8 (selectKey (Config.freeChoice s.freeCtr) s.newKeys).toNat := by
  rw [s.completeWait_readV, State.readV_writeV_same, BitVec.ofNat_toNat]

theorem State.sameBut_completeWait (s : State) : SameBut [s.wx] s s.completeWait :=
  ⟨fun _ hr => s.readV_writeV_ne _ (List.ne_of_not_mem_cons hr), fun _ => rfl⟩

/-- Settles O28: the engine's turn in a wait, without and with a new key. -/
theorem keyWaitCompletion : Obligations.KeyWaitCompletion := by
  intro s hp
  refine ⟨fun hn => engineTurn_holds hp hn, fun hn => ?completes⟩
  have hnew := selectKey_mem (Config.freeChoice s.freeCtr) (set := s.newKeys) hn
  rw [s.getLsbD_newKeys, Bool.and_eq_true, Bool.not_eq_true'] at hnew
  obtain ⟨hpressed, hbase⟩ := hnew
  exact ⟨s.completeWait, _, engineTurn_completes hp hn, hpressed, hbase, s.completeWait_readV_wx,
    rfl, rfl, rfl, s.sameBut_completeWait, rfl⟩

/-- Settles O30: the press makes its key the only new one, and the engine's next turn completes. -/
theorem pressingANewKeyCompletesTheWait : Obligations.PressingANewKeyCompletesTheWait := by
  intro s k hp hs hn hk
  have hpress : step s = .next (s.taken.pressKey k) := step_taken hs
  have hnew := State.getLsbD_newKeys_pressKey (s := s.taken) hn hk
  have hselect : ∀ choice, selectKey choice (s.taken.pressKey k).newKeys = k := fun choice =>
    selectKey_of_unique choice ((hnew k).mpr rfl) fun j => (hnew j).mp
  have hn' : (s.taken.pressKey k).newKeys ≠ 0 := fun h0 => by
    have := (hnew k).mpr rfl
    simp [h0] at this
  have hcomplete : step (s.taken.pressKey k) = .next (s.taken.pressKey k).completeWait :=
    (step_idleSchedule (by simp [State.taken, hs])).trans (engineTurn_completes hp hn')
  refine ⟨(s.taken.pressKey k).completeWait, ?run, rfl, rfl, ?key, ?frame⟩
  case run => rw [core_run_succ 1 hpress, core_run_succ 0 hcomplete]; rfl
  case key =>
    have hkey := (s.taken.pressKey k).completeWait_readV_wx
    rwa [hselect] at hkey
  case frame => exact (s.taken.pressKey k).sameBut_completeWait

/-! ### What keeps a wait going -/

/-- An action that brings no key outside the baseline `kb`, nor a reset. -/
def KeepsWaiting (kb : Word) (a : Action) : Prop :=
  a = .engine ∨ a = .snapshot ∨ a = .tick ∨ (∃ w, a = .present w) ∨ (∃ k, a = .setUnpressed k) ∨
    ∃ k : Nibble, a = .setPressed k ∧ kb.getLsbD k.toNat = true

section
variable {s : State} {a : Action}

/-- Such an action changes at most the pressed keys and the display sink's frame, and no key is new
after it. -/
theorem act_keepsWaiting (hp : s.phase = .waitKey) (hn : s.newKeys = 0) (ha : KeepsWaiting s.kb a) :
    ∃ kp frame, act a s = .next { s with kp := kp, frame := frame } ∧ kp &&& ~~~s.kb = 0 := by
  obtain rfl | rfl | rfl | ⟨w, rfl⟩ | ⟨k, rfl⟩ | ⟨k, rfl, hk⟩ := ha
  · exact ⟨s.kp, s.frame, engineTurn_holds hp hn, hn⟩
  · exact ⟨s.kp, some s.fb, rfl, hn⟩
  · exact ⟨s.kp, s.frame, rfl, hn⟩
  · exact ⟨s.kp, s.frame, presentWord_waiting hp w, hn⟩
  · exact ⟨_, s.frame, rfl, State.newKeys_releaseKey (k := k) hn⟩
  · exact ⟨_, s.frame, rfl, State.newKeys_pressKey_baseline hn hk⟩

/-- Such a step, whose turn is off the schedule afterwards. -/
theorem step_keepsWaiting (hp : s.phase = .waitKey) (hn : s.newKeys = 0)
    (ha : ∀ a ∈ s.schedule, KeepsWaiting s.kb a) :
    ∃ kp frame, step s = .next { s.taken with kp := kp, frame := frame } ∧ kp &&& ~~~s.kb = 0 := by
  cases hs : s.schedule with
  | nil =>
    rw [step_engine (.inl hs)]
    exact act_keepsWaiting (s := s.taken) (a := .engine) hp hn (.inl rfl)
  | cons a rest =>
    rw [step_taken hs]
    exact act_keepsWaiting (s := s.taken) hp hn (ha a (hs ▸ List.mem_cons_self))

end

/-- Settles O29: by induction on the number of steps, each of which keeps waiting. -/
theorem baselineKeysNeverCompleteTheWait : Obligations.BaselineKeysNeverCompleteTheWait := by
  intro n
  induction n with
  | zero => exact fun s _ hn _ => ⟨s, rfl, hn, rfl⟩
  | succ n ih =>
    intro s hp hn ha
    obtain ⟨kp, frame, hstep, hn'⟩ := step_keepsWaiting hp hn ha
    obtain ⟨t, hrun, htn, ht⟩ := ih { s.taken with kp := kp, frame := frame } hp hn'
      fun a hmem => ha a (List.mem_of_mem_tail hmem)
    exact ⟨t, (core_run_succ n hstep).trans hrun, htn, ht⟩

end Sys2Proof.Machine
end

section
/-! PROOFS. The end of a run, normal and abnormal (70_reset_and_hazards.md section 3). -/

namespace Sys2Proof.Machine

/-! ### At a normal end -/

section
variable {s t : State}

theorem State.ended_iff : s.ended = true ↔ s.phase = .ready ∧ s.fetch = none := by
  simp [State.ended]

/-- Where the run has ended a step executes a word only if the driver presents one. -/
theorem presents_of_executes_of_ended {w : Word} (h : Executes s w) (he : s.ended = true) :
    ∃ rest, s.schedule = .present w :: rest := by
  obtain ⟨-, ⟨-, hf⟩ | hs⟩ := h
  · rw [(State.ended_iff.mp he).2] at hf
    cases hf
  · exact hs

/-- The driver's actions that reach a run which has ended: a presented word and a reset. -/
def NoDriverAction (s : State) : Prop :=
  ∀ a ∈ s.schedule, (∀ w, a ≠ .present w) ∧ ∀ image, a ≠ .reset image

/-- Without those a step at a normal end is one of the outside agents' only. -/
theorem step_of_ended (he : s.ended = true) (hs : NoDriverAction s) :
    ∃ kp frame, step s = .next { s.taken with kp := kp, frame := frame } := by
  obtain ⟨w, hw⟩ | ⟨t, ht, haside⟩ := step_executes_or_aside s
  · obtain ⟨rest, hrest⟩ := presents_of_executes_of_ended hw he
    exact absurd rfl ((hs _ (hrest ▸ List.mem_cons_self)).1 w)
  · cases haside with
    | resets h => exact absurd rfl ((hs _ (h ▸ List.mem_cons_self)).2 _)
    | completes hp => exact absurd ((State.ended_iff.mp he).1.symm.trans hp) nofun
    | outside kp frame => exact ⟨kp, frame, ht⟩

/-- With nobody else to move a step at a normal end changes nothing (log 3). -/
theorem step_of_ended_idle (he : s.ended = true) (hs : s.schedule = []) : step s = .next s := by
  obtain ⟨hp, hf⟩ := State.ended_iff.mp he
  exact (step_idleSchedule hs).trans (engineTurn_empty hp hf)

/-- A run from a state that steps to itself stays there. -/
theorem core_run_of_fixed (h : step s = .next s) (j : Nat) : Sys2Proof.core.run j s = .next s := by
  induction j with
  | zero => rfl
  | succ j ih => rw [core_run_succ j h, ih]

end

/-- A run that has ended stays ended; only `KP`, the schedule and the sink's frame may differ. -/
theorem core_run_of_ended (j : Nat) : ∀ {s : State}, s.ended = true → NoDriverAction s →
    ∃ u : State, Sys2Proof.core.run j s = .next u ∧ u.ended = true ∧
      u = { s with kp := u.kp, schedule := u.schedule, frame := u.frame } := by
  induction j with
  | zero => exact fun {s} he _ => ⟨s, rfl, he, rfl⟩
  | succ j ih =>
    intro s he hs
    obtain ⟨kp, frame, hstep⟩ := step_of_ended he hs
    obtain ⟨u, hrun, hue, hu⟩ := ih (s := { s.taken with kp := kp, frame := frame }) he
      fun a ha => hs a (List.mem_of_mem_tail ha)
    exact ⟨u, (core_run_succ j hstep).trans hrun, hue, hu⟩

/-! ### The moment of an end -/

section
variable {s t u : State} {k m : Nat} {f g : Fault}

/-- A run that had not ended before moment `m` is not past a normal end. -/
theorem RunsTo.le_of_ended (h : RunsTo m s u) (hrun : Sys2Proof.core.run k s = .next t)
    (he : t.ended = true) : m ≤ k := by
  by_contra hlt
  rw [h.2 k (Nat.lt_of_not_le hlt) t hrun] at he
  cases he

/-- A run that meets a fault answers it however far it is taken (log 14). -/
theorem core_run_past_fault (hrun : Sys2Proof.core.run m s = .next u) (hf : step u = .fault f)
    (j : Nat) : Sys2Proof.core.run (m + 1 + j) s = .fault f := by
  rw [Nat.add_assoc, core_run_add _ hrun, Nat.add_comm]
  exact core_run_fault j hf

/-- A moment that a run reaches is not past a fault. -/
theorem le_of_run_of_fault (ht : Sys2Proof.core.run k s = .next t)
    (hu : Sys2Proof.core.run m s = .next u) (hf : step u = .fault f) : k ≤ m := by
  by_contra hlt
  have hpast := core_run_past_fault hu hf (k - (m + 1))
  rw [show m + 1 + (k - (m + 1)) = k by omega, ht] at hpast
  cases hpast

/-- A run is at one state at each moment. -/
theorem eq_of_run (ht : Sys2Proof.core.run k s = .next t) (hu : Sys2Proof.core.run k s = .next u) :
    u = t := by
  rw [ht] at hu
  cases hu
  rfl

theorem EndsNormally.unique (ht : EndsNormally k s t) (hu : EndsNormally m s u) :
    m = k ∧ u = t := by
  obtain ⟨htr, hte⟩ := ht
  obtain ⟨hur, hue⟩ := hu
  obtain rfl : m = k := Nat.le_antisymm (hur.le_of_ended htr.1 hte) (htr.le_of_ended hur.1 hue)
  exact ⟨rfl, eq_of_run htr.1 hur.1⟩

theorem EndsNormally.not_endsByFault (ht : EndsNormally k s t) : ¬EndsByFault m s u f := by
  obtain ⟨htr, hte⟩ := ht
  rintro ⟨hur, hue, hf⟩
  obtain rfl : m = k :=
    Nat.le_antisymm (hur.le_of_ended htr.1 hte) (le_of_run_of_fault htr.1 hur.1 hf)
  rw [eq_of_run htr.1 hur.1, hte] at hue
  cases hue

theorem EndsByFault.unique (ht : EndsByFault k s t f) (hu : EndsByFault m s u g) :
    m = k ∧ u = t ∧ g = f := by
  obtain ⟨htr, -, hf⟩ := ht
  obtain ⟨hur, -, hg⟩ := hu
  obtain rfl : m = k :=
    Nat.le_antisymm (le_of_run_of_fault hur.1 htr.1 hf) (le_of_run_of_fault htr.1 hur.1 hg)
  obtain rfl := eq_of_run htr.1 hur.1
  rw [hf] at hg
  cases hg
  exact ⟨rfl, rfl, rfl⟩

end

/-- Settles O51: at a normal end no step executes a word of slot `PC`, and two ends of one run are
at the same moment. -/
theorem aRunEndsAtMostOnce : Obligations.ARunEndsAtMostOnce := by
  intro s t k h
  have ⟨⟨hrun, _⟩, he⟩ := h
  obtain ⟨hp, hf⟩ := State.ended_iff.mp he
  refine ⟨hp, hf, fun hs j => ?still, fun hs j => ?kept, fun _ _ hu => h.unique hu,
    fun _ _ _ => h.not_endsByFault⟩
  case still =>
    have hidle : t.schedule = [] := by rw [core_run_schedule hrun, hs, List.drop_nil]
    rw [core_run_add j hrun]
    exact core_run_of_fixed (step_of_ended_idle he hidle) j
  case kept =>
    rw [core_run_add j hrun]
    exact core_run_of_ended j he hs

/-! ### The faults of a step -/

/-- Executing a word faults exactly where the instruction it decodes to does. -/
theorem execWord_eq_fault_iff {w : Word} {s : State} {f : Fault} :
    execWord w s = .fault f ↔ ∃ i, decode w = .instr i ∧ RaisesFault i s f := by
  cases hd : decode w with
  | undef u => simp [execWord_undef hd]
  | instr i =>
    rw [execWord_instr hd, exec_eq_fault_iff]
    exact ⟨fun h => ⟨i, rfl, h⟩, by rintro ⟨_, ⟨⟩, h⟩; exact h⟩

/-- A step faults exactly where it executes a word whose instruction does. -/
theorem step_eq_fault_iff {s : State} {f : Fault} : step s = .fault f ↔
    ∃ w i, Executes s w ∧ decode w = .instr i ∧ RaisesFault i s f := by
  constructor
  · intro h
    obtain ⟨w, hw⟩ | ⟨t, ht, -⟩ := step_executes_or_aside s
    · rw [step_of_executes hw, execWord_eq_fault_iff] at h
      obtain ⟨i, hd, hi⟩ := h
      exact ⟨w, i, hw, hd, hi⟩
    · rw [ht] at h
      cases h
  · rintro ⟨w, i, hw, hd, hi⟩
    rw [step_of_executes hw, execWord_eq_fault_iff]
    exact ⟨i, hd, hi⟩

/-- Settles O53: the faults of a step, and what an end by a fault says of its last step. -/
theorem aStepFaultsExactlyForItsInstruction : Obligations.AStepFaultsExactlyForItsInstruction := by
  refine ⟨fun s f => step_eq_fault_iff, fun s t k f h => ?_⟩
  have ⟨⟨hrun, _⟩, _, hf⟩ := h
  exact ⟨step_eq_fault_iff.mp hf, core_run_past_fault hrun hf, fun _ _ _ hu => h.unique hu⟩

end Sys2Proof.Machine
end
